-- ==== Sys2Proof/Word.lean ====
section
/-! DEFINITION. The word types of the engine: a byte, a command word, a text (00_scope.md R5, R6, R9). -/

namespace Sys2Proof

/-- A byte, a number in 0..255, bit 7 its most significant bit (00_scope.md R5, R6). -/
abbrev Byte := BitVec 8

/-- A command word, 64 bits, bit 63 its most significant bit (30_encoding.md R100). -/
abbrev Word64 := BitVec 64

/-- A text result: a finite sequence of 8-bit character codes (00_scope.md R9, 30_encoding.md R125). -/
abbrev Text := List Byte

end Sys2Proof
end

