-- ==== Sys2Proof/Syntax.lean ====
section
/-! DEFINITION. The commands of the engine as a type: one constructor per row of the opcode map (30_encoding.md R110). -/

namespace Sys2Proof

/-- The alarm identifier (30_encoding.md R105). -/
inductive AlarmName where
  | a1
  | a2
deriving DecidableEq, Repr

/-- The alarm match mode (30_encoding.md R105, 45_alarm_config.md R274). -/
inductive AlarmMode where
  | minute
  | hourMinute
  | dateHourMinute
  | weekdayHourMinute
deriving DecidableEq, Repr

/-- The 26 commands (30_encoding.md R110). Byte operands are bytes; the calendar operands are natural
numbers, as the spec takes them (00_scope.md R6), and `Instr.WellFormed` says they fit their fields. -/
inductive Instr where
  | rdreg (addr : Byte)
  | wrreg (addr value : Byte)
  | bcd2dec (value : Byte)
  | dec2bcd (value : Byte)
  | year
  | month
  | date
  | wday
  | dayname
  | hour
  | min
  | sec
  | rdstat
  | rdctl
  | temph
  | templ
  | timestr
  | datestr
  | unixts
  | leap (year : Nat)
  | epoch (year month date hour minute second : Nat)
  | setalm (name : AlarmName) (mode : AlarmMode) (date weekday hour minute : Nat)
  | aie (name : AlarmName) (en : Bool)
  | aclr (name : AlarmName)
  | gint (en : Bool)
  | setdt (year month date weekday hour minute second : Nat)
deriving DecidableEq, Repr

end Sys2Proof
end

