-- ==== Sys2Proof/WellFormed.lean ====
section
/-! DEFINITION. When a command can be written as a command word: every operand fits its field (30_encoding.md R103, R120). -/

namespace Sys2Proof

/-- Every operand fits the width of its field (30_encoding.md R103). A command that is not well
formed "cannot be encoded and is an assembly error, not a command" (R120). The legal ranges of the
operands are another matter, checked by the engine (60_exceptions.md R342). -/
def Instr.WellFormed : Instr → Bool
  | .rdreg _ | .wrreg _ _ | .bcd2dec _ | .dec2bcd _ => true
  | .year | .month | .date | .wday | .dayname | .hour | .min | .sec => true
  | .rdstat | .rdctl | .temph | .templ | .timestr | .datestr | .unixts => true
  | .aie _ _ | .aclr _ | .gint _ => true
  | .leap y => y < 4096
  | .epoch y mo d h mi s => y < 4096 && mo < 16 && d < 32 && h < 32 && mi < 64 && s < 64
  | .setalm _ _ d wd h mi => d < 32 && wd < 8 && h < 32 && mi < 64
  | .setdt y mo d wd h mi s =>
    y < 4096 && mo < 16 && d < 32 && wd < 8 && h < 32 && mi < 64 && s < 64

end Sys2Proof
end

