-- ==== Sys2Proof/Decode.lean ====
section
/-! DEFINITION. The command word: its fields, the opcode map, the total decoder and the encoder (30_encoding.md R100 to R115). -/

namespace Sys2Proof

/-- `w[hi:lo]`, the unsigned number made of bits `hi` down to `lo` (00_scope.md R5). -/
def bits (w : Word64) (hi lo : Nat) : Nat := w.toNat / 2 ^ lo % 2 ^ (hi - lo + 1)

/-- `op = w[63:56]` (30_encoding.md R100). -/
def opcode (w : Word64) : Nat := bits w 63 56

/-- A byte-wide field of a command word, `w[lo+7:lo]`. -/
def byteField (w : Word64) (lo : Nat) : Byte := BitVec.ofNat 8 (bits w (lo + 7) lo)

/-- The field `name`: 0 is A1, 1 is A2 (30_encoding.md R105). -/
def alarmNameOf (n : Nat) : AlarmName := if n = 0 then .a1 else .a2

/-- The field `mode`: the four values in the source's listing order (30_encoding.md R105). -/
def alarmModeOf : Nat → AlarmMode
  | 0 => .minute
  | 1 => .hourMinute
  | 2 => .dateHourMinute
  | _ => .weekdayHourMinute

/-- The code of `name` (30_encoding.md R105). -/
def AlarmName.code : AlarmName → Nat
  | .a1 => 0
  | .a2 => 1

/-- The code of `mode` (30_encoding.md R105). -/
def AlarmMode.code : AlarmMode → Nat
  | .minute => 0
  | .hourMinute => 1
  | .dateHourMinute => 2
  | .weekdayHourMinute => 3

/-- The code of `en`: 1 is enable, 0 is disable (30_encoding.md R105). -/
def enableCode (en : Bool) : Nat := if en then 1 else 0

/-- The two ways a word is no command (30_encoding.md R104, R115). -/
inductive DecodeError where
  /-- `w[63:56]` is not one of the 26 opcodes. -/
  | unknownOpcode
  /-- The opcode is legal and a reserved bit of its format is 1. -/
  | reservedBit
deriving DecidableEq, Repr

/-- The `info` of `IllegalCommand` (60_exceptions.md R341). -/
def DecodeError.info : DecodeError → Nat
  | .unknownOpcode => 0
  | .reservedBit => 1

/-- The reserved bits of a format are 0 (30_encoding.md R103, R115); each pair is a range `hi:lo`. -/
def reservedClear (w : Word64) (ranges : List (Nat × Nat)) : Bool :=
  ranges.all fun r => bits w r.1 r.2 == 0

/-- The command, if the reserved bits of its format are 0 (30_encoding.md R104). -/
def ifReservedClear (w : Word64) (ranges : List (Nat × Nat)) (i : Instr) :
    Except DecodeError Instr :=
  if reservedClear w ranges then .ok i else .error .reservedBit

/-- The decoder, total on any 64-bit word (30_encoding.md R104); formats and reserved bits as in
R103. -/
def decode (w : Word64) : Except DecodeError Instr :=
  match opcode w with
  | 0x01 => ifReservedClear w [(55, 8)] (.rdreg (byteField w 0))
  | 0x02 => ifReservedClear w [(55, 16)] (.wrreg (byteField w 8) (byteField w 0))
  | 0x10 => ifReservedClear w [(55, 8)] (.bcd2dec (byteField w 0))
  | 0x11 => ifReservedClear w [(55, 8)] (.dec2bcd (byteField w 0))
  | 0x20 => ifReservedClear w [(55, 0)] .year
  | 0x21 => ifReservedClear w [(55, 0)] .month
  | 0x22 => ifReservedClear w [(55, 0)] .date
  | 0x23 => ifReservedClear w [(55, 0)] .wday
  | 0x24 => ifReservedClear w [(55, 0)] .dayname
  | 0x25 => ifReservedClear w [(55, 0)] .hour
  | 0x26 => ifReservedClear w [(55, 0)] .min
  | 0x27 => ifReservedClear w [(55, 0)] .sec
  | 0x28 => ifReservedClear w [(55, 0)] .rdstat
  | 0x29 => ifReservedClear w [(55, 0)] .rdctl
  | 0x2A => ifReservedClear w [(55, 0)] .temph
  | 0x2B => ifReservedClear w [(55, 0)] .templ
  | 0x30 => ifReservedClear w [(55, 0)] .timestr
  | 0x31 => ifReservedClear w [(55, 0)] .datestr
  | 0x40 => ifReservedClear w [(55, 0)] .unixts
  | 0x41 => ifReservedClear w [(55, 12)] (.leap (bits w 11 0))
  | 0x42 => ifReservedClear w [(55, 41), (19, 17)]
      (.epoch (bits w 40 29) (bits w 28 25) (bits w 24 20) (bits w 16 12) (bits w 11 6)
        (bits w 5 0))
  | 0x50 => ifReservedClear w [(55, 22)]
      (.setalm (alarmNameOf (bits w 21 21)) (alarmModeOf (bits w 20 19)) (bits w 18 14)
        (bits w 13 11) (bits w 10 6) (bits w 5 0))
  | 0x60 => ifReservedClear w [(55, 9), (7, 1)]
      (.aie (alarmNameOf (bits w 8 8)) (bits w 0 0 == 1))
  | 0x70 => ifReservedClear w [(55, 9), (7, 0)] (.aclr (alarmNameOf (bits w 8 8)))
  | 0x71 => ifReservedClear w [(55, 1)] (.gint (bits w 0 0 == 1))
  | 0x80 => ifReservedClear w [(55, 41)]
      (.setdt (bits w 40 29) (bits w 28 25) (bits w 24 20) (bits w 19 17) (bits w 16 12)
        (bits w 11 6) (bits w 5 0))
  | _ => .error .unknownOpcode

/-- The opcode of a command (30_encoding.md R110). -/
def Instr.opcode : Instr → Nat
  | .rdreg _ => 0x01
  | .wrreg _ _ => 0x02
  | .bcd2dec _ => 0x10
  | .dec2bcd _ => 0x11
  | .year => 0x20
  | .month => 0x21
  | .date => 0x22
  | .wday => 0x23
  | .dayname => 0x24
  | .hour => 0x25
  | .min => 0x26
  | .sec => 0x27
  | .rdstat => 0x28
  | .rdctl => 0x29
  | .temph => 0x2A
  | .templ => 0x2B
  | .timestr => 0x30
  | .datestr => 0x31
  | .unixts => 0x40
  | .leap _ => 0x41
  | .epoch _ _ _ _ _ _ => 0x42
  | .setalm _ _ _ _ _ _ => 0x50
  | .aie _ _ => 0x60
  | .aclr _ => 0x70
  | .gint _ => 0x71
  | .setdt _ _ _ _ _ _ _ => 0x80

/-- The operand fields of a command, each shifted to its place (30_encoding.md R103). -/
def Instr.operandBits : Instr → Nat
  | .rdreg a => a.toNat
  | .wrreg a v => 2 ^ 8 * a.toNat + v.toNat
  | .bcd2dec v | .dec2bcd v => v.toNat
  | .year | .month | .date | .wday | .dayname | .hour | .min | .sec => 0
  | .rdstat | .rdctl | .temph | .templ | .timestr | .datestr | .unixts => 0
  | .leap y => y
  | .epoch y mo d h mi s =>
    2 ^ 29 * y + 2 ^ 25 * mo + 2 ^ 20 * d + 2 ^ 12 * h + 2 ^ 6 * mi + s
  | .setalm n m d wd h mi =>
    2 ^ 21 * n.code + 2 ^ 19 * m.code + 2 ^ 14 * d + 2 ^ 11 * wd + 2 ^ 6 * h + mi
  | .aie n en => 2 ^ 8 * n.code + enableCode en
  | .aclr n => 2 ^ 8 * n.code
  | .gint en => enableCode en
  | .setdt y mo d wd h mi s =>
    2 ^ 29 * y + 2 ^ 25 * mo + 2 ^ 20 * d + 2 ^ 17 * wd + 2 ^ 12 * h + 2 ^ 6 * mi + s

/-- The encoder: opcode in `w[63:56]`, the fields of the format below it, every reserved bit 0
(30_encoding.md R100, R103). It says something of well-formed commands only. -/
def encode (i : Instr) : Word64 := BitVec.ofNat 64 (2 ^ 56 * i.opcode + i.operandBits)

/-- The mnemonic of a command, as the opcode map spells it (30_encoding.md R110). -/
def Instr.mnemonic : Instr → String
  | .rdreg _ => "RDREG"
  | .wrreg _ _ => "WRREG"
  | .bcd2dec _ => "BCD2DEC"
  | .dec2bcd _ => "DEC2BCD"
  | .year => "YEAR"
  | .month => "MONTH"
  | .date => "DATE"
  | .wday => "WDAY"
  | .dayname => "DAYNAME"
  | .hour => "HOUR"
  | .min => "MIN"
  | .sec => "SEC"
  | .rdstat => "RDSTAT"
  | .rdctl => "RDCTL"
  | .temph => "TEMPH"
  | .templ => "TEMPL"
  | .timestr => "TIMESTR"
  | .datestr => "DATESTR"
  | .unixts => "UNIXTS"
  | .leap _ => "LEAP"
  | .epoch _ _ _ _ _ _ => "EPOCH"
  | .setalm _ _ _ _ _ _ => "SETALM"
  | .aie _ _ => "AIE"
  | .aclr _ => "ACLR"
  | .gint _ => "GINT"
  | .setdt _ _ _ _ _ _ _ => "SETDT"

/-- One row of the opcode map. -/
structure OpcodeRow where
  mnemonic : String
  /-- The opcode in place. -/
  fixed    : Word64
  /-- A 1 at every bit that is fixed. -/
  mask     : Word64
deriving DecidableEq, Repr

/-- The opcode map as 30_encoding.md R110 prints it: mnemonic, match, mask. -/
def opcodeMap : List OpcodeRow := [
  ⟨"RDREG", 0x0100000000000000, 0xFFFFFFFFFFFFFF00⟩,
  ⟨"WRREG", 0x0200000000000000, 0xFFFFFFFFFFFF0000⟩,
  ⟨"BCD2DEC", 0x1000000000000000, 0xFFFFFFFFFFFFFF00⟩,
  ⟨"DEC2BCD", 0x1100000000000000, 0xFFFFFFFFFFFFFF00⟩,
  ⟨"YEAR", 0x2000000000000000, 0xFFFFFFFFFFFFFFFF⟩,
  ⟨"MONTH", 0x2100000000000000, 0xFFFFFFFFFFFFFFFF⟩,
  ⟨"DATE", 0x2200000000000000, 0xFFFFFFFFFFFFFFFF⟩,
  ⟨"WDAY", 0x2300000000000000, 0xFFFFFFFFFFFFFFFF⟩,
  ⟨"DAYNAME", 0x2400000000000000, 0xFFFFFFFFFFFFFFFF⟩,
  ⟨"HOUR", 0x2500000000000000, 0xFFFFFFFFFFFFFFFF⟩,
  ⟨"MIN", 0x2600000000000000, 0xFFFFFFFFFFFFFFFF⟩,
  ⟨"SEC", 0x2700000000000000, 0xFFFFFFFFFFFFFFFF⟩,
  ⟨"RDSTAT", 0x2800000000000000, 0xFFFFFFFFFFFFFFFF⟩,
  ⟨"RDCTL", 0x2900000000000000, 0xFFFFFFFFFFFFFFFF⟩,
  ⟨"TEMPH", 0x2A00000000000000, 0xFFFFFFFFFFFFFFFF⟩,
  ⟨"TEMPL", 0x2B00000000000000, 0xFFFFFFFFFFFFFFFF⟩,
  ⟨"TIMESTR", 0x3000000000000000, 0xFFFFFFFFFFFFFFFF⟩,
  ⟨"DATESTR", 0x3100000000000000, 0xFFFFFFFFFFFFFFFF⟩,
  ⟨"UNIXTS", 0x4000000000000000, 0xFFFFFFFFFFFFFFFF⟩,
  ⟨"LEAP", 0x4100000000000000, 0xFFFFFFFFFFFFF000⟩,
  ⟨"EPOCH", 0x4200000000000000, 0xFFFFFE00000E0000⟩,
  ⟨"SETALM", 0x5000000000000000, 0xFFFFFFFFFFC00000⟩,
  ⟨"AIE", 0x6000000000000000, 0xFFFFFFFFFFFFFEFE⟩,
  ⟨"ACLR", 0x7000000000000000, 0xFFFFFFFFFFFFFEFF⟩,
  ⟨"GINT", 0x7100000000000000, 0xFFFFFFFFFFFFFFFE⟩,
  ⟨"SETDT", 0x8000000000000000, 0xFFFFFE0000000000⟩]

/-- `w` selects the row: `(w & mask) = match` (30_encoding.md R104). -/
def OpcodeRow.selects (r : OpcodeRow) (w : Word64) : Prop := w &&& r.mask = r.fixed

/-- The number of bus transactions of a fault-free execution (30_encoding.md R110, column "bus"). -/
def Instr.busCount : Instr → Nat
  | .rdreg _ => 2
  | .wrreg _ _ => 1
  | .bcd2dec _ | .dec2bcd _ => 0
  | .year | .month | .date | .wday | .dayname | .hour | .min | .sec => 2
  | .rdstat | .rdctl | .temph | .templ => 2
  | .timestr | .datestr => 6
  | .unixts => 12
  | .leap _ | .epoch _ _ _ _ _ _ => 0
  | .setalm _ _ _ _ _ _ => 1
  | .aie _ _ | .aclr _ | .gint _ => 3
  | .setdt _ _ _ _ _ _ _ => 1

/-- The command the decoder reads from the word whose bits are `w`, numbered as the opcode table
numbers them; bits at `nbits` and above are 0. The spec gives the word no byte order (30_encoding.md
R100, log 23). -/
def decodeTableWord (nbits w : Nat) : Option Instr :=
  match decode (BitVec.ofNat 64 (w % 2 ^ nbits)) with
  | .ok i => some i
  | .error _ => none

end Sys2Proof
end

