-- ==== Sys2Proof/Config.lean ====
section
/-! DEFINITION. The open parameters of 00_scope.md R4, and the free values: constants with no body, which nothing in Lean can evaluate. -/

namespace Sys2Proof

/-- The two admitted values of `MONTH_MASK`, the mask MONTH and UNIXTS apply to register `0x05`
(00_scope.md R4, 92_eei_decisions.md D8). -/
inductive MonthMask where
  /-- `0xFF`, the default: no mask. -/
  | none
  /-- `0x1F`: the century bit is stripped. -/
  | stripCentury
deriving DecidableEq, Repr

/-- `CHIP_ENV` (20_memory.md R80): may the chip change its own registers between two transactions? -/
inductive ChipEnv where
  | free
  | static
deriving DecidableEq, Repr

/-- Which device answers on the bus. DESIGN CHOICE (log 7): the spec describes both and names no
parameter that selects one. -/
inductive Device where
  /-- The reference device of 20_memory.md R81, whose behaviour is fixed everywhere. -/
  | reference
  /-- A chip of which only 20_memory.md R66, R67 and 10_state.md R45 are known. What
  93_implementation_defined.md U4, U6 and U11 leave open is a free value. -/
  | real
deriving DecidableEq, Repr

/-- The parameters of 00_scope.md R4 that stay open. They are fixed for a machine: no step changes
them. -/
structure Config where
  monthMask : MonthMask
  /-- `DAY_NAMES[1..7]`, entry `k` of the spec at index `k - 1` (42_field_accessors.md R189). -/
  dayNames  : Vector Text 7
  chipEnv   : ChipEnv
  device    : Device
deriving DecidableEq, Repr

/-- FREE VALUE (log 5). What the register at an address holds after the chip's power-up, as long as
nothing has written it (10_state.md R52, 93_implementation_defined.md U2). -/
opaque Config.powerUpByte : Nat → Byte

/-- FREE VALUE (log 5). The chip's address pointer after power-up (10_state.md R52). -/
opaque Config.powerUpPointer : Byte

/-- FREE VALUE (log 6). The seven day names, of which no source gives one (92_eei_decisions.md D10). -/
opaque Config.dayNamesOpen : Vector Text 7

/-- FREE VALUES (logs 8 to 11), one byte per draw: what a real chip does where the spec does not say
(93_implementation_defined.md U4, U5, U6, U11). -/
opaque Config.freeByte : Nat → Byte

/-- FREE VALUES (log 12), one text per draw: what DAYNAME answers for index 8
(42_field_accessors.md R189, 93_implementation_defined.md U1). -/
opaque Config.freeText : Nat → Text

/-- FREE VALUE (log 14). What a temporary the command in flight has not written would read as; no
rule reads one (10_state.md R23). -/
opaque Config.unwrittenTemp : Nat → Byte

end Sys2Proof
end

