-- ==== Sys2Proof/Machine/State.lean ====
section
/-! DEFINITION. The state of the machine as plain data (10_state.md), the reasons a step can stop, and the state after reset (10_state.md R50 to R53). -/

namespace Sys2Proof.Machine

/-- Why the model's step stops with a fault. The engine's own three faults are not here: each is
delivered as a response, a next state (60_exceptions.md R345). -/
inductive Fault where
  /-- Raised by the engine's step alone, when the word in flight is no command. An accepted word always
  decodes (10_state.md R26), so no run from an idle engine reaches it. Safe: the model stops where
  the spec describes no machine (log 20). -/
  | undecodableInFlight
deriving DecidableEq, Repr

/-- Why the model refuses a command. -/
inductive Refusal where
  /-- Raised by an arm of `exec` whose command has no meaning yet. No arm raises it. Safe. -/
  | notModelled (mnemonic : String)
deriving DecidableEq, Repr

/-- The status of a response (30_encoding.md R125, 60_exceptions.md R340). -/
inductive Status where
  | ok
  | illegalCommand
  | invalidArgument
  | busError
deriving DecidableEq, Repr

/-- One response (30_encoding.md R125). -/
structure Response where
  status : Status
  info   : Byte
  value  : BitVec 32
  text   : Text
deriving DecidableEq, Repr

/-- One bus transaction (20_memory.md R62). -/
inductive Txn where
  /-- `BusWrite([addr, data...])`: one write transaction, the register address first. -/
  | write (addr : Byte) (data : List Byte)
  /-- `BusRead(1)`: one read transaction. -/
  | read
deriving DecidableEq, Repr

/-- How a transaction ended (20_memory.md R63, R64). -/
inductive TxnResult where
  /-- `Ok`, with the byte returned if it was a read. -/
  | done (byte : Option Byte)
  /-- `Error`. -/
  | failed
  /-- Issued and never completed. -/
  | pending
deriving DecidableEq, Repr

/-- A bus transaction of the engine, as an observer of the bus sees it. -/
structure BusRecord where
  device : BitVec 7
  txn    : Txn
  result : TxnResult
deriving DecidableEq, Repr

/-- What the external agent chooses for one transaction of the engine (20_memory.md R63, R73). -/
inductive Answer where
  /-- `Ok`: a write reached the chip, a read returns the chip's byte. -/
  | ok
  /-- `Ok`, but a read returns this byte whatever the chip holds: a failure the bus layer hides. -/
  | okWith (byte : Byte)
  /-- `Error`. `left` is what the registers the write addresses hold afterwards, in address order;
  a register past its end keeps its byte. -/
  | error (left : List Byte)
  /-- The transaction never completes; `left` as for `error`. -/
  | never (left : List Byte)
deriving DecidableEq, Repr

/-- Which agent moves next (00_scope.md R10, R11). -/
inductive Move where
  /-- One step of the engine (10_state.md R26). -/
  | engine
  /-- The chip changes its own registers (20_memory.md R80). -/
  | chip (cells : List Host.Cell)
  /-- A transaction of another bus master, or of a second engine (20_memory.md R77). -/
  | master (txn : Txn)
  /-- The engine is reset (70_reset_and_hazards.md R380). -/
  | reset
  /-- The chip powers up. What its registers, in address order, and its pointer hold afterwards is
  unspecified, so this move brings it from outside (10_state.md R52, R53; log 30). -/
  | powerUp (regs : Vector Byte 19) (pointer : Byte)
deriving DecidableEq, Repr

/-- The chip's registers that have been written since power-up: (address, byte) pairs, addresses
strictly rising, none above `0x12` (`Memory.wf`). An unlisted register has no value of the model's:
it reads as the free byte `Config.powerUpByte` (log 5). -/
abbrev Memory := List Host.Cell

/-- The whole machine: engine, host side, chip, parameters, and the inputs still to come. -/
structure State where
  /-- 1 from the acceptance of a command to the delivery of its response (10_state.md R26). -/
  busy         : Bool
  /-- The command word in flight (R26). -/
  cmd          : Word64
  /-- The spec's `step`: the number of transactions of this command that have completed (R26). -/
  stepNo       : Nat
  /-- The temporaries written so far, `t[0]` first (10_state.md R23). -/
  temps        : List Byte
  /-- A transaction has been issued and never completes (20_memory.md R64, log 3). -/
  transferring : Bool
  /-- The command index (10_state.md R24). -/
  cix          : Nat
  /-- The host's command list (00_scope.md R12). -/
  commands     : List Word64
  /-- The responses delivered, oldest first (60_exceptions.md R345). -/
  responses    : List Response
  /-- The chip's register file (10_state.md R30). -/
  mem          : Memory
  /-- The chip's address pointer (10_state.md R45). -/
  ap           : Byte
  /-- The open parameters (00_scope.md R4). -/
  cfg          : Config
  /-- The MODEL's own: bus outcomes still to come; after the last, `Answer.ok` (log 2). -/
  answers      : List Answer
  /-- The MODEL's own: which agent moves next; after the last, the engine (log 1). -/
  agenda       : List Move
  /-- The MODEL's own: the transactions the engine has issued, oldest first (log 19). -/
  trace        : List BusRecord
  /-- The MODEL's own: how many free values have been used (log 13). -/
  draws        : Nat
deriving DecidableEq, Repr

/-- The machine after reset: an idle engine, no command presented yet, a chip just powered up
(10_state.md R50, R52, R53; the other fields logs 1, 2, 4, 6, 7, 13, 15, 19). -/
def State.reset : State where
  busy := false
  cmd := 0
  stepNo := 0
  temps := []
  transferring := false
  cix := 0
  commands := []
  responses := []
  mem := []
  ap := Config.powerUpPointer
  cfg := { monthMask := .none, dayNames := Config.dayNamesOpen, chipEnv := .free, device := .real }
  answers := []
  agenda := []
  trace := []
  draws := 0

end Sys2Proof.Machine
end

