-- ==== Sys2Proof/Machine/Registers.lean ====
section
/-! DEFINITION. The constants of the engine: the register-address table and the device address (10_state.md R21). -/

namespace Sys2Proof.Machine

/-- `DEV_ADDR`, the chip's fixed 7-bit bus address (10_state.md R21). -/
def devAddr : BitVec 7 := 0x68

/-- `REG_TOP`, the highest address of the register table (00_scope.md R4). -/
def regTop : Nat := 0x12

/-- `YEAR_BASE` (00_scope.md R4). -/
def yearBase : Nat := 2000

/-- `EPOCH_YEAR` (00_scope.md R4). -/
def epochYear : Nat := 1970

/-! The table `RA`, thirteen entries (10_state.md R21, 20_memory.md R61). -/

def RA.second : Byte := 0x00
def RA.minute : Byte := 0x01
def RA.hour : Byte := 0x02
def RA.day : Byte := 0x03
def RA.date : Byte := 0x04
def RA.month : Byte := 0x05
def RA.year : Byte := 0x06
def RA.alarm1 : Byte := 0x08
def RA.alarm2 : Byte := 0x0B
def RA.control : Byte := 0x0E
def RA.status : Byte := 0x0F
def RA.tempHi : Byte := 0x11
def RA.tempLo : Byte := 0x12

/-- The address is one of the chip's registers, `0x00` to `0x12` (10_state.md R31). -/
def inMap (a : Byte) : Bool := a.toNat ≤ regTop

/-- The registers an environment step may replace: time, status, temperature (20_memory.md R80). -/
def chipMayChange (a : Nat) : Bool := a ≤ 0x06 || a == 0x0F || a == 0x11 || a == 0x12

end Sys2Proof.Machine
end

