-- ==== Sys2Proof/Machine/Operands.lean ====
section
/-! DEFINITION. Operand checks of the setters, the clamp, the BCD codec and the field decoding (00_scope.md R7; 41_bcd_codec.md; 42_field_accessors.md R181, R183; 60_exceptions.md R342). -/

namespace Sys2Proof.Machine

/-- `clamp(v, lo, hi)` (00_scope.md R7). -/
def clamp (v lo hi : Nat) : Nat := if v < lo then lo else if v > hi then hi else v

/-- `bcdToDecimal(b)`, total, no validation (41_bcd_codec.md R160). -/
def bcdToDecimal (b : Byte) : Nat := b.toNat / 16 * 10 + b.toNat % 16

/-- `decimalToBcd(d)`, exact, never truncated (41_bcd_codec.md R161). -/
def decimalToBcd (d : Nat) : Nat := d / 10 * 16 + d % 10

/-- `decimalToBcd(d)` as a byte for the bus; `d <= 99` wherever it is used (41_bcd_codec.md R161). -/
def bcdByte (d : Nat) : Byte := BitVec.ofNat 8 (decimalToBcd d)

/-- The byte of `MONTH_MASK` (00_scope.md R4). -/
def monthMaskByte : MonthMask → Byte
  | .none => 0xFF
  | .stripCentury => 0x1F

/-- The decoding of `field(a, m, lo, hi)`: mask, decode, clamp (42_field_accessors.md R181). -/
def fieldValue (b mask : Byte) (lo hi : Nat) : Nat := clamp (bcdToDecimal (b &&& mask)) lo hi

/-! The rows of the accessor table (42_field_accessors.md R183). -/

def yearValue (b : Byte) : Nat := yearBase + fieldValue b 0xFF 0 99
def monthValue (m : MonthMask) (b : Byte) : Nat := fieldValue b (monthMaskByte m) 1 12
def dateValue (b : Byte) : Nat := fieldValue b 0xFF 1 31
def weekdayValue (b : Byte) : Nat := fieldValue b 0xFF 1 7
def dayNameIndex (b : Byte) : Nat := fieldValue b 0xFF 1 8
def hourValue (b : Byte) : Nat := fieldValue b 0xFF 0 23
def minuteValue (b : Byte) : Nat := fieldValue b 0xFF 0 59
def secondValue (b : Byte) : Nat := fieldValue b 0xFF 0 59

/-- `DAY_NAMES[k]` for `k` in 1..7: entry `k - 1` of the table (42_field_accessors.md R189). -/
def dayName (names : Vector Text 7) (k : Nat) : Text := names.toList.getD (k - 1) []

/-- The value lies in the range, both ends included. -/
def within (v lo hi : Nat) : Bool := lo ≤ v && v ≤ hi

/-- The 1-based position of the first operand whose check fails, counted from `k`
(60_exceptions.md R342). -/
def firstFailing : Nat → List Bool → Option Nat
  | _, [] => none
  | k, good :: rest => if good then firstFailing (k + 1) rest else some k

/-- The first bad operand of SETDT (48_datetime_set.md R321, R322). -/
def setdtBad (year month date weekday hour minute second : Nat) : Option Nat :=
  firstFailing 1 [within year 2000 2099, within month 1 12, within date 1 31, within weekday 1 7,
    within hour 0 23, within minute 0 59, within second 0 59]

/-- The first bad operand of SETALM: `name` and `mode`, positions 1 and 2, are always legal, and the
four numbers are checked in every mode (45_alarm_config.md R271, R272). -/
def setalmBad (date weekday hour minute : Nat) : Option Nat :=
  firstFailing 3 [within date 1 31, within weekday 1 7, within hour 0 23, within minute 0 59]

/-- The first bad operand of EPOCH (44_timestamp.md R247). -/
def epochBad (year month date hour minute second : Nat) : Option Nat :=
  firstFailing 1 [within year 2000 2099, within month 1 12, within date 1 31, within hour 0 23,
    within minute 0 59, within second 0 59]

/-- The position of the first bad operand of a command: only SETDT, SETALM and EPOCH check any
(60_exceptions.md R342). -/
def badOperand : Instr → Option Nat
  | .rdreg _ | .wrreg _ _ | .bcd2dec _ | .dec2bcd _ => none
  | .year | .month | .date | .wday | .dayname | .hour | .min | .sec => none
  | .rdstat | .rdctl | .temph | .templ | .timestr | .datestr | .unixts => none
  | .leap _ | .aie _ _ | .aclr _ | .gint _ => none
  | .epoch y mo d h mi s => epochBad y mo d h mi s
  | .setalm _ _ d wd h mi => setalmBad d wd h mi
  | .setdt y mo d wd h mi s => setdtBad y mo d wd h mi s

end Sys2Proof.Machine
end

