-- ==== Sys2Proof/Machine/Flags.lean ====
section
/-! DEFINITION. The bits of the chip's control, status and alarm registers that the engine computes (45_alarm_config.md R272 to R274; 46_alarm_interrupt_enable.md R290; 47_flag_clear_global_int.md R300). The engine itself has no flags (10_state.md R25). -/

namespace Sys2Proof.Machine

/-- `not8(a)`, the 8-bit complement (00_scope.md R6). -/
def not8 (a : Byte) : Byte := ~~~a

/-- `alarmMask(name)`: bit 0 for A1, bit 1 for A2, in the control register (A1IE, A2IE) and in the
status register (A1F, A2F) alike (46_alarm_interrupt_enable.md R290, 47_flag_clear_global_int.md
R300). -/
def alarmMask : AlarmName → Byte
  | .a1 => 0x01
  | .a2 => 0x02

/-- INTCN, bit 2 of the control register (47_flag_clear_global_int.md R300). -/
def intcnMask : Byte := 0x04

/-- Enabling is OR with the mask, disabling is AND with its complement
(46_alarm_interrupt_enable.md R290). -/
def setOrClear (en : Bool) (mask b : Byte) : Byte := if en then b ||| mask else b &&& not8 mask

/-- The base of an alarm's register block (45_alarm_config.md R272). -/
def alarmBase : AlarmName → Byte
  | .a1 => RA.alarm1
  | .a2 => RA.alarm2

/-- The hour byte `b2`: bit 7 is set in mode `Minute` (45_alarm_config.md R272, R274). -/
def alarmHourByte (mode : AlarmMode) (hour : Nat) : Byte :=
  match mode with
  | .minute => bcdByte hour ||| 0x80
  | .hourMinute | .dateHourMinute | .weekdayHourMinute => bcdByte hour

/-- `dayDateByte(mode, date, weekday)`, the byte `b3` (45_alarm_config.md R274). -/
def dayDateByte (mode : AlarmMode) (date weekday : Nat) : Byte :=
  match mode with
  | .minute => bcdByte date ||| 0x80
  | .hourMinute => bcdByte date ||| 0x80
  | .dateHourMinute => bcdByte date
  | .weekdayHourMinute => bcdByte weekday ||| 0x40

end Sys2Proof.Machine
end

