-- ==== Sys2Proof/Machine/Ops.lean ====
section
/-! DEFINITION. The shared operations: the chip's memory and pointer, a bus transaction, a response, fault entry, and one engine step of a command (10_state.md R26; 20_memory.md R62 to R81; 60_exceptions.md R345). -/

namespace Sys2Proof.Machine

/-! ## Memory -/

/-- The byte written at an address, if one has been. -/
def Memory.get? : Memory → Nat → Option Byte
  | [], _ => none
  | (k, b) :: m, a => if k = a then some b else Memory.get? m a

/-- Write one byte, keeping the addresses strictly rising. -/
def Memory.set : Memory → Nat → Byte → Memory
  | [], a, b => [(a, b)]
  | (k, c) :: m, a, b =>
    if a < k then (a, b) :: (k, c) :: m
    else if a = k then (a, b) :: m
    else (k, c) :: Memory.set m a b

/-- The addresses are at least `lo` and strictly rising. -/
def Memory.risesFrom : Nat → Memory → Bool
  | _, [] => true
  | lo, (k, _) :: m => decide (lo ≤ k) && Memory.risesFrom (k + 1) m

/-- The canonical form: addresses strictly rising, and each of them a register of the chip. An
unlisted register has no value of the model's, so no entry can equal one (log 5). -/
def Memory.wf (m : Memory) : Bool :=
  Memory.risesFrom 0 m && m.all fun c => decide (c.1 ≤ regTop)

/-- A register file that lists these bytes at consecutive addresses, from `a` on. -/
def Memory.listedFrom (a : Nat) : List Byte → Memory
  | [] => []
  | b :: bs => (a, b) :: Memory.listedFrom (a + 1) bs

/-- `reg[a]` for an address of the map: the byte written last, or the free power-up byte
(10_state.md R30, R52; log 5). -/
def State.regByte (s : State) (a : Nat) : Byte := (Memory.get? s.mem a).getD (Config.powerUpByte a)

/-- `reg[a] <- b` for an address of the map. -/
def State.setReg (s : State) (a : Nat) (b : Byte) : State := { s with mem := Memory.set s.mem a b }

/-! ## The chip -/

/-- Use up `n` free values (log 13). -/
def State.spend (n : Nat) (s : State) : State := { s with draws := s.draws + n }

/-- Every register becomes a free value, taken from draw `d` on. -/
def havoc (d : Nat) (m : Memory) : Memory :=
  (List.range (regTop + 1)).foldl (fun m a => Memory.set m a (Config.freeByte (d + a))) m

/-- A data byte goes to an address above `0x12`. The reference device ignores it (20_memory.md R81).
On a real chip the effect is unspecified (R72, 93_implementation_defined.md U4): every register
becomes a free value (log 8). -/
def strayWrite (s : State) : State :=
  match s.cfg.device with
  | .reference => s
  | .real => State.spend (regTop + 1) { s with mem := havoc s.draws s.mem }

/-- What a register that holds `old` holds after `v` is written to it on a real chip. It is `v`
(20_memory.md R66) but for the bits the chip may not let the bus change (93_implementation_defined.md
U6): the temperature registers and bits 7:2 of the status register are free (log 9), and an alarm flag
can only be written to 0, a 1 leaves it as it was (47_flag_clear_global_int.md R301; PRESUMED by the
spec, log 31). -/
def keptByte (a old v free : Byte) : Byte :=
  if a = RA.status then (free &&& 0xFC) ||| (old &&& v &&& 0x03)
  else if a = RA.tempHi || a = RA.tempLo then free
  else v

/-- A data byte goes to a register of the map (20_memory.md R66, R81). -/
def storeInMap (a v : Byte) (s : State) : State :=
  match s.cfg.device with
  | .reference => s.setReg a.toNat v
  | .real => State.spend 1 (s.setReg a.toNat
    (keptByte a (s.regByte a.toNat) v (Config.freeByte s.draws)))

/-- The pointer goes up after a data byte (10_state.md R45). Past `0x12` the reference device counts
on modulo 256 (20_memory.md R81); a real chip's pointer is free there (log 11). -/
def bumpPointer (s : State) : State :=
  match s.cfg.device with
  | .reference => { s with ap := s.ap + 1 }
  | .real =>
    if s.ap.toNat < regTop then { s with ap := s.ap + 1 }
    else State.spend 1 { s with ap := Config.freeByte s.draws }

/-- The chip takes one data byte of a write transaction (10_state.md R45, 20_memory.md R81). -/
def storeByte (s : State) (v : Byte) : State :=
  bumpPointer (if inMap s.ap then storeInMap s.ap v s else strayWrite s)

/-- `BusWrite([a, data...])` on a chip that acknowledges: the first byte sets the pointer, each data
byte is stored there and moves it up (20_memory.md R66, R67; 10_state.md R45). -/
def busWrite (a : Byte) (data : List Byte) (s : State) : State :=
  data.foldl storeByte { s with ap := a }

/-- The byte the chip returns to `BusRead(1)`: `reg[ap]` (10_state.md R45). Above `0x12` the reference
device returns `0xFF` (20_memory.md R81) and a real chip a free byte (R72, log 8). -/
def readByte (s : State) : Byte :=
  if inMap s.ap then s.regByte s.ap.toNat
  else match s.cfg.device with
    | .reference => 0xFF
    | .real => Config.freeByte s.draws

/-- What a read leaves: only the pointer moves. The reference device counts it up (20_memory.md R81);
a real chip's pointer is free after a read (93_implementation_defined.md U11, log 11). -/
def afterRead (s : State) : State :=
  match s.cfg.device with
  | .reference => { s with ap := s.ap + 1 }
  | .real => State.spend 2 { s with ap := Config.freeByte (s.draws + 1) }

/-- One register that a failed write addressed: it keeps its byte or holds the byte the environment
left there (20_memory.md R73, 93_implementation_defined.md U5, log 10). -/
def leaveByte (a : Byte) (left : Option Byte) (s : State) : State :=
  if inMap a then
    match left with
    | some b => s.setReg a.toNat b
    | none => s
  else strayWrite s

/-- Every register that a failed write addressed, from `a` on. -/
def leaveBytes : Byte → List Byte → List Byte → State → State
  | _, [], _, s => s
  | a, _ :: data, left, s => leaveBytes (a + 1) data left.tail (leaveByte a left.head? s)

/-- The chip after a transaction that ended in `Error` or never completes: the registers a write
addresses are as the environment left them, and the pointer is free (20_memory.md R73, log 10). -/
def disturb (t : Txn) (left : List Byte) (s : State) : State :=
  match t with
  | .write a data =>
    leaveBytes a data left (State.spend 1 { s with ap := Config.freeByte s.draws })
  | .read => State.spend 1 { s with ap := Config.freeByte s.draws }

/-! ## Responses and fault entry -/

/-- The 4-bit code of a status (30_encoding.md R125, 60_exceptions.md R340). -/
def Status.code : Status → BitVec 4
  | .ok => 0
  | .illegalCommand => 1
  | .invalidArgument => 2
  | .busError => 3

/-- The delivery of a response: the command ends, `busy <- 0`, `cix` goes up by 1, the temporaries are
lost (10_state.md R23, R24, R26; 60_exceptions.md R345). -/
def deliver (r : Response) (s : State) : State :=
  { s with
    busy := false
    transferring := false
    temps := []
    cix := s.cix + 1
    responses := s.responses ++ [r] }

/-- `respond(value, text)`: status `OK`, info 0 (30_encoding.md R125). Every value fits 32 bits
(44_timestamp.md R249). -/
def respond (value : Nat) (text : Text) (s : State) : State :=
  deliver ⟨.ok, 0, BitVec.ofNat 32 value, text⟩ s

/-- `raise F(info)`, the engine's fault entry: one response with the fault's status and info, value 0
and no text; nothing is saved and there is nothing to return to (60_exceptions.md R345, R346). -/
def raise (f : Status) (info : Nat) (s : State) : State :=
  deliver ⟨f, BitVec.ofNat 8 info, 0, []⟩ s

/-! ## One engine step -/

/-- A transaction of the engine is seen on the bus, addressed to the chip (10_state.md R21). -/
def logTxn (t : Txn) (r : TxnResult) (s : State) : State :=
  { s with trace := s.trace ++ [⟨devAddr, t, r⟩] }

/-- The transaction completes `Ok`: the chip has acted, a byte read goes to the next free temporary,
and `step` goes up by 1 (10_state.md R26). `instead` is the byte a read returns if it is not the
chip's (20_memory.md R63). -/
def completeTxn (t : Txn) (instead : Option Byte) (s : State) : State :=
  match t with
  | .write a data =>
    logTxn t (.done none) { busWrite a data s with stepNo := s.stepNo + 1 }
  | .read =>
    let b := instead.getD (readByte s)
    logTxn t (.done (some b)) { afterRead s with stepNo := s.stepNo + 1, temps := s.temps ++ [b] }

/-- The next outcome the environment has chosen is used up. -/
def State.takeAnswer (s : State) : State := { s with answers := s.answers.tail }

/-- *transact* (10_state.md R26): the transaction is issued and ends as the environment chose
(20_memory.md R63, R64). `Error` ends the command with `BusError(step)` (60_exceptions.md R343); a
transaction that never completes leaves the engine as it is for ever. -/
def transact (t : Txn) (s : State) : State :=
  if s.transferring then s
  else match s.answers.headD .ok with
    | .ok => completeTxn t none s.takeAnswer
    | .okWith b => completeTxn t (some b) s.takeAnswer
    | .error left => raise .busError s.stepNo (logTxn t .failed (disturb t left s.takeAnswer))
    | .never left =>
      { logTxn t .pending (disturb t left s.takeAnswer) with transferring := true }

/-- *accept* (10_state.md R26): `cmd <- w`, `step <- 0`, `busy <- 1`, no temporary written. `w` is the
command's word; decoding is one to one, so it is the word presented (log 25). -/
def accept (i : Instr) (s : State) : State :=
  { s with busy := true, transferring := false, cmd := encode i, stepNo := 0, temps := [] }

/-- `t[i]`, the byte of the command's `i`-th register read (10_state.md R23). -/
def State.tmp (s : State) (i : Nat) : Byte := s.temps.getD i (Config.unwrittenTemp i)

/-- One engine step of the command `i` (10_state.md R26): *accept* or `InvalidArgument` when the engine
is idle; *transact* while transactions of `plan` are left; then *respond*. `bad` is the position of
the first bad operand, `plan` the transactions of the command's rule in order, `finish` its
response. -/
def runCommand (i : Instr) (bad : Option Nat) (plan : List Txn) (finish : State → State)
    (s : State) : Host.Outcome State Fault Refusal :=
  if s.busy then
    match plan[s.stepNo]? with
    | some t => .next (transact t s)
    | none => .next (finish s)
  else match bad with
    | some k => .next (raise .invalidArgument k s)
    | none => .next (accept i s)

/-- `readRegister(a)`: the address write, then the read of one byte (20_memory.md R65). -/
def readRegister (a : Byte) : List Txn := [.write a [], .read]

/-- `writeRegister(a, v)`: one transaction of two bytes (20_memory.md R66). -/
def writeRegister (a v : Byte) : List Txn := [.write a [v]]

/-- The register reads of a command, in order (20_memory.md R65). -/
def readRegisters (as : List Byte) : List Txn := as.flatMap readRegister

end Sys2Proof.Machine
end

