-- ==== Sys2Proof/Machine/Accessors.lean ====
section
/-! DEFINITION. The twelve field accessors (42_field_accessors.md). -/

namespace Sys2Proof.Machine

/-- The family: read exactly one register, respond with a number made from the byte
(42_field_accessors.md R180). -/
def accessor (i : Instr) (a : Byte) (value : Byte → Nat) (s : State) :
    Host.Outcome State Fault Refusal :=
  runCommand i none (readRegister a) (fun s => respond (value (s.tmp 0)) [] s) s

/-- YEAR (42_field_accessors.md R185). -/
def execYear (s : State) : Host.Outcome State Fault Refusal :=
  accessor .year RA.year yearValue s

/-- MONTH, with the parameter `MONTH_MASK` (42_field_accessors.md R186). -/
def execMonth (s : State) : Host.Outcome State Fault Refusal :=
  accessor .month RA.month (monthValue s.cfg.monthMask) s

/-- DATE (42_field_accessors.md R187). -/
def execDate (s : State) : Host.Outcome State Fault Refusal :=
  accessor .date RA.date dateValue s

/-- WDAY (42_field_accessors.md R188). -/
def execWday (s : State) : Host.Outcome State Fault Refusal :=
  accessor .wday RA.day weekdayValue s

/-- The response of DAYNAME: index and name for 1..7; for index 8 the number is defined and the text
is free (42_field_accessors.md R189, log 12). -/
def respondDayName (s : State) : State :=
  let k := dayNameIndex (s.tmp 0)
  if k ≤ 7 then respond k (dayName s.cfg.dayNames k) s
  else respond k (Config.freeText s.draws) (State.spend 1 s)

/-- DAYNAME, from the raw register with its own clamp to 8 (42_field_accessors.md R189). -/
def execDayname (s : State) : Host.Outcome State Fault Refusal :=
  runCommand .dayname none (readRegister RA.day) respondDayName s

/-- HOUR (42_field_accessors.md R190). -/
def execHour (s : State) : Host.Outcome State Fault Refusal :=
  accessor .hour RA.hour hourValue s

/-- MIN (42_field_accessors.md R191). -/
def execMin (s : State) : Host.Outcome State Fault Refusal :=
  accessor .min RA.minute minuteValue s

/-- SEC (42_field_accessors.md R192). -/
def execSec (s : State) : Host.Outcome State Fault Refusal :=
  accessor .sec RA.second secondValue s

/-- RDSTAT, raw (42_field_accessors.md R193). -/
def execRdstat (s : State) : Host.Outcome State Fault Refusal :=
  accessor .rdstat RA.status BitVec.toNat s

/-- RDCTL, raw (42_field_accessors.md R194). -/
def execRdctl (s : State) : Host.Outcome State Fault Refusal :=
  accessor .rdctl RA.control BitVec.toNat s

/-- TEMPH, raw (42_field_accessors.md R195). -/
def execTemph (s : State) : Host.Outcome State Fault Refusal :=
  accessor .temph RA.tempHi BitVec.toNat s

/-- TEMPL, raw (42_field_accessors.md R196). -/
def execTempl (s : State) : Host.Outcome State Fault Refusal :=
  accessor .templ RA.tempLo BitVec.toNat s

end Sys2Proof.Machine
end

