-- ==== Sys2Proof/Machine/Alarm.lean ====
section
/-! DEFINITION. SETALM (45_alarm_config.md). -/

namespace Sys2Proof.Machine

/-- SETALM: minute, hour and day/date bytes in one block write from the alarm's base
(45_alarm_config.md R272 to R274). Alarm 1's seconds register is not written (R275). -/
def execSetalm (name : AlarmName) (mode : AlarmMode) (date weekday hour minute : Nat) (s : State) :
    Host.Outcome State Fault Refusal :=
  runCommand (.setalm name mode date weekday hour minute) (setalmBad date weekday hour minute)
    [.write (alarmBase name)
      [bcdByte minute, alarmHourByte mode hour, dayDateByte mode date weekday]]
    (respond 0 []) s

end Sys2Proof.Machine
end

