-- ==== Sys2Proof/Machine/Codec.lean ====
section
/-! DEFINITION. BCD2DEC and DEC2BCD (41_bcd_codec.md). -/

namespace Sys2Proof.Machine

/-- BCD2DEC: decode one byte, malformed BCD included (41_bcd_codec.md R162). -/
def execBcd2dec (value : Byte) (s : State) : Host.Outcome State Fault Refusal :=
  runCommand (.bcd2dec value) none [] (respond (bcdToDecimal value) []) s

/-- DEC2BCD: encode one number, the exact natural (41_bcd_codec.md R163). -/
def execDec2bcd (value : Byte) (s : State) : Host.Outcome State Fault Refusal :=
  runCommand (.dec2bcd value) none [] (respond (decimalToBcd value.toNat) []) s

end Sys2Proof.Machine
end

