-- ==== Sys2Proof/Machine/ControlStatus.lean ====
section
/-! DEFINITION. The read-modify-write commands AIE, ACLR and GINT (46_alarm_interrupt_enable.md, 47_flag_clear_global_int.md). -/

namespace Sys2Proof.Machine

/-- Read a register, change the byte, write it back: three transactions, never skipped, not atomic
(20_memory.md R78). -/
def modifyRegister (i : Instr) (a : Byte) (change : Byte → Byte) (s : State) :
    Host.Outcome State Fault Refusal :=
  runCommand i none (readRegister a ++ writeRegister a (change (s.tmp 0))) (respond 0 []) s

/-- AIE: set or clear one alarm's interrupt enable (46_alarm_interrupt_enable.md R291). -/
def execAie (name : AlarmName) (en : Bool) (s : State) : Host.Outcome State Fault Refusal :=
  modifyRegister (.aie name en) RA.control (setOrClear en (alarmMask name)) s

/-- ACLR: clear one alarm's fired flag (47_flag_clear_global_int.md R301). -/
def execAclr (name : AlarmName) (s : State) : Host.Outcome State Fault Refusal :=
  modifyRegister (.aclr name) RA.status (fun b => b &&& not8 (alarmMask name)) s

/-- GINT: set or clear INTCN (47_flag_clear_global_int.md R305). -/
def execGint (en : Bool) (s : State) : Host.Outcome State Fault Refusal :=
  modifyRegister (.gint en) RA.control (setOrClear en intcnMask) s

end Sys2Proof.Machine
end

