-- ==== Sys2Proof/Machine/DateTime.lean ====
section
/-! DEFINITION. SETDT (48_datetime_set.md). -/

namespace Sys2Proof.Machine

/-- SETDT: seven BCD bytes from register `0x00` on, in one block write (48_datetime_set.md R322). -/
def execSetdt (year month date weekday hour minute second : Nat) (s : State) :
    Host.Outcome State Fault Refusal :=
  runCommand (.setdt year month date weekday hour minute second)
    (setdtBad year month date weekday hour minute second)
    [.write RA.second
      [bcdByte second, bcdByte minute, bcdByte hour, bcdByte weekday, bcdByte date, bcdByte month,
        bcdByte (year - yearBase)]]
    (respond 0 []) s

end Sys2Proof.Machine
end

