-- ==== Sys2Proof/Machine/RegisterAccess.lean ====
section
/-! DEFINITION. RDREG and WRREG (40_register_access.md). -/

namespace Sys2Proof.Machine

/-- RDREG: read one register, raw (40_register_access.md R141). -/
def execRdreg (addr : Byte) (s : State) : Host.Outcome State Fault Refusal :=
  runCommand (.rdreg addr) none (readRegister addr) (fun s => respond (s.tmp 0).toNat [] s) s

/-- WRREG: write one register, raw (40_register_access.md R142). -/
def execWrreg (addr value : Byte) (s : State) : Host.Outcome State Fault Refusal :=
  runCommand (.wrreg addr value) none (writeRegister addr value) (respond 0 []) s

end Sys2Proof.Machine
end

