-- ==== Sys2Proof/Machine/Strings.lean ====
section
/-! DEFINITION. TIMESTR and DATESTR (43_string_format.md; character codes 00_scope.md R9). -/

namespace Sys2Proof.Machine

/-- `digit(n)` for `n` in 0..9: the character `0x30 + n` (00_scope.md R9). -/
def digit (n : Nat) : Byte := BitVec.ofNat 8 (0x30 + n)

/-- `':'` (00_scope.md R9). -/
def colon : Byte := 0x3A

/-- `'.'` (00_scope.md R9). -/
def dot : Byte := 0x2E

/-- The decimal numeral of `n`, given more fuel than it has digits. -/
def decimalDigits : Nat → Nat → Text
  | 0, _ => []
  | fuel + 1, n => if n < 10 then [digit n] else decimalDigits fuel (n / 10) ++ [digit (n % 10)]

/-- `dec(n)`: the decimal numeral of `n`, no leading zero (00_scope.md R9). -/
def dec (n : Nat) : Text := decimalDigits (n + 1) n

/-- Two digits, zero-padded (43_string_format.md R221). -/
def twoDigits (n : Nat) : Text := [digit (n / 10), digit (n % 10)]

/-- `HH:MM:SS` (43_string_format.md R221). -/
def timeText (h m s : Nat) : Text := twoDigits h ++ [colon] ++ twoDigits m ++ [colon] ++ twoDigits s

/-- `D.M.YYYY` (43_string_format.md R222). -/
def dateText (d mo y : Nat) : Text := dec d ++ [dot] ++ dec mo ++ [dot] ++ dec y

/-- TIMESTR: hour, minute, second, each decoded and clamped (43_string_format.md R220, R221). -/
def execTimestr (s : State) : Host.Outcome State Fault Refusal :=
  runCommand .timestr none (readRegisters [RA.hour, RA.minute, RA.second])
    (fun s => respond 0
      (timeText (hourValue (s.tmp 0)) (minuteValue (s.tmp 1)) (secondValue (s.tmp 2))) s) s

/-- DATESTR: date, month, year; the month is always masked with `0x1F` (43_string_format.md R222). -/
def execDatestr (s : State) : Host.Outcome State Fault Refusal :=
  runCommand .datestr none (readRegisters [RA.date, RA.month, RA.year])
    (fun s => respond 0
      (dateText (dateValue (s.tmp 0)) (monthValue .stripCentury (s.tmp 1))
        (yearValue (s.tmp 2))) s) s

end Sys2Proof.Machine
end

