-- ==== Sys2Proof/Machine/Timestamp.lean ====
section
/-! DEFINITION. Calendar arithmetic, UNIXTS, LEAP and EPOCH (44_timestamp.md). -/

namespace Sys2Proof.Machine

/-- `isLeap(y)` (44_timestamp.md R240). -/
def isLeap (y : Nat) : Bool := y % 4 == 0 && (y % 100 != 0 || y % 400 == 0)

/-- `yearSeconds(y)` (44_timestamp.md R241). -/
def yearSeconds (y : Nat) : Nat := if isLeap y then 31622400 else 31536000

/-- `daysInMonth(y, m)` for `m` in 1..12 (44_timestamp.md R242). PRESUMED by the spec: the month lengths
other than February's (93_implementation_defined.md G1, log 22). -/
def daysInMonth (y m : Nat) : Nat :=
  match m with
  | 2 => if isLeap y then 29 else 28
  | 4 | 6 | 9 | 11 => 30
  | _ => 31

/-- The seconds of the `n` years from 1970 on (44_timestamp.md R243, part b). -/
def yearsSeconds : Nat → Nat
  | 0 => 0
  | n + 1 => yearsSeconds n + yearSeconds (epochYear + n)

/-- The seconds of the first `n` months of year `y` (44_timestamp.md R243, part c). -/
def monthsSeconds (y : Nat) : Nat → Nat
  | 0 => 0
  | n + 1 => monthsSeconds y n + 86400 * daysInMonth y (n + 1)

/-- `epochSeconds(Y, M, D, h, mi, s)` (44_timestamp.md R243); no check that the date exists (R244). -/
def epochSeconds (Y M D h mi s : Nat) : Nat :=
  s + 60 * mi + 3600 * h + 86400 * (D - 1) + yearsSeconds (Y - epochYear) + monthsSeconds Y (M - 1)

/-- UNIXTS: year, month, date, hour, minute, second, each as its accessor computes it, the month with
`MONTH_MASK` (44_timestamp.md R245). -/
def execUnixts (s : State) : Host.Outcome State Fault Refusal :=
  runCommand .unixts none
    (readRegisters [RA.year, RA.month, RA.date, RA.hour, RA.minute, RA.second])
    (fun s => respond
      (epochSeconds (yearValue (s.tmp 0)) (monthValue s.cfg.monthMask (s.tmp 1))
        (dateValue (s.tmp 2)) (hourValue (s.tmp 3)) (minuteValue (s.tmp 4))
        (secondValue (s.tmp 5))) [] s) s

/-- LEAP: the leap-year test on any 12-bit year (44_timestamp.md R246). -/
def execLeap (year : Nat) (s : State) : Host.Outcome State Fault Refusal :=
  runCommand (.leap year) none [] (respond (if isLeap year then 1 else 0) []) s

/-- EPOCH: the accumulation on checked operands (44_timestamp.md R247). -/
def execEpoch (year month date hour minute second : Nat) (s : State) :
    Host.Outcome State Fault Refusal :=
  runCommand (.epoch year month date hour minute second)
    (epochBad year month date hour minute second) []
    (respond (epochSeconds year month date hour minute second) []) s

end Sys2Proof.Machine
end

