-- ==== Sys2Proof/Machine/Dispatch.lean ====
section
/-! DEFINITION. One engine step of each command: one arm per constructor of Instr. -/

namespace Sys2Proof.Machine

def exec (i : Instr) (s : State) : Host.Outcome State Fault Refusal :=
  match i with
  | .rdreg addr => Sys2Proof.Machine.execRdreg addr s
  | .wrreg addr value => Sys2Proof.Machine.execWrreg addr value s
  | .bcd2dec value => Sys2Proof.Machine.execBcd2dec value s
  | .dec2bcd value => Sys2Proof.Machine.execDec2bcd value s
  | .year => Sys2Proof.Machine.execYear s
  | .month => Sys2Proof.Machine.execMonth s
  | .date => Sys2Proof.Machine.execDate s
  | .wday => Sys2Proof.Machine.execWday s
  | .dayname => Sys2Proof.Machine.execDayname s
  | .hour => Sys2Proof.Machine.execHour s
  | .min => Sys2Proof.Machine.execMin s
  | .sec => Sys2Proof.Machine.execSec s
  | .rdstat => Sys2Proof.Machine.execRdstat s
  | .rdctl => Sys2Proof.Machine.execRdctl s
  | .temph => Sys2Proof.Machine.execTemph s
  | .templ => Sys2Proof.Machine.execTempl s
  | .timestr => Sys2Proof.Machine.execTimestr s
  | .datestr => Sys2Proof.Machine.execDatestr s
  | .unixts => Sys2Proof.Machine.execUnixts s
  | .leap y => Sys2Proof.Machine.execLeap y s
  | .epoch y mo d h mi sc => Sys2Proof.Machine.execEpoch y mo d h mi sc s
  | .setalm n m d wd h mi => Sys2Proof.Machine.execSetalm n m d wd h mi s
  | .aie n en => Sys2Proof.Machine.execAie n en s
  | .aclr n => Sys2Proof.Machine.execAclr n s
  | .gint en => Sys2Proof.Machine.execGint en s
  | .setdt y mo d wd h mi sc => Sys2Proof.Machine.execSetdt y mo d wd h mi sc s

end Sys2Proof.Machine
end

