-- ==== Sys2Proof/Machine/Engine.lean ====
section
/-! DEFINITION. Which command the engine works on, one engine step, and the moves of the other agents (10_state.md R24, R26, R51; 20_memory.md R77, R80; 70_reset_and_hazards.md R380). -/

namespace Sys2Proof.Machine

/-- The word the engine works on: the one in flight, or, when it is idle, the one the host presents,
`commands[cix]` (10_state.md R24, R26). -/
def State.currentWord (s : State) : Option Word64 :=
  if s.busy then some s.cmd else s.commands[s.cix]?

/-- What the engine does with the word it works on, once decoded. A word presented that is no command
raises `IllegalCommand` (30_encoding.md R104, 60_exceptions.md R341). -/
def runDecoded (d : Except DecodeError Instr) (s : State) : Host.Outcome State Fault Refusal :=
  match d with
  | .ok i => exec i s
  | .error e =>
    if s.busy then .fault .undecodableInFlight
    else .next (raise .illegalCommand e.info s)

/-- One step of the engine (10_state.md R26). With no command to work on it waits. -/
def engineStep (s : State) : Host.Outcome State Fault Refusal :=
  match s.currentWord with
  | none => .next s
  | some w => runDecoded (decode w) s

/-- An environment step of the chip: under `CHIP_ENV = FREE` it replaces time, status and temperature
registers by any values; under `STATIC` there is none (20_memory.md R80, log 17). -/
def chipStep (cells : List Host.Cell) (s : State) : State :=
  match s.cfg.chipEnv with
  | .static => s
  | .free => { s with
      mem := cells.foldl (fun m c => if chipMayChange c.1 then Memory.set m c.1 c.2 else m) s.mem }

/-- A transaction of another bus master: the chip acts on it, the engine sees nothing of it
(20_memory.md R77, log 18). -/
def masterStep (t : Txn) (s : State) : State :=
  match t with
  | .write a data => busWrite a data s
  | .read => afterRead s

/-- The chip powers up: its registers and its pointer hold what the move brings; the engine and the
host are unchanged (10_state.md R52, R53; log 30). -/
def chipPowerUp (regs : Vector Byte 19) (pointer : Byte) (s : State) : State :=
  { s with mem := Memory.listedFrom 0 regs.toList, ap := pointer }

/-- A reset of the engine: `busy <- 0`, the command in flight is dropped without a response; the chip
and `cix` are untouched (70_reset_and_hazards.md R380, 10_state.md R51). DESIGN CHOICE: `cmd`,
`stepNo` and `temps`, which R50 and R53 leave unspecified after it, keep what they held (log 4). -/
def engineReset (s : State) : State := { s with busy := false, transferring := false }

/-- One step of whichever agent moves next (00_scope.md R10, R11; log 1). -/
def machineStep (s : State) : Host.Outcome State Fault Refusal :=
  match s.agenda with
  | [] => engineStep s
  | .engine :: rest => engineStep { s with agenda := rest }
  | .chip cells :: rest => .next (chipStep cells { s with agenda := rest })
  | .master t :: rest => .next (masterStep t { s with agenda := rest })
  | .reset :: rest => .next (engineReset { s with agenda := rest })
  | .powerUp regs p :: rest => .next (chipPowerUp regs p { s with agenda := rest })

/-- The list with `w` at position `n`; positions before it that the list does not have hold `w` too. -/
def placeAt (w : Word64) : List Word64 → Nat → List Word64
  | [], 0 => [w]
  | [], n + 1 => w :: placeAt w [] n
  | _ :: ws, 0 => w :: ws
  | v :: ws, n + 1 => v :: placeAt w ws n

/-- The host presents `w` next, the engine is idle and moves next (log 15). -/
def State.present (s : State) (w : Word64) : State :=
  { s with
    busy := false
    transferring := false
    agenda := []
    commands := placeAt w s.commands s.cix }

end Sys2Proof.Machine
end

