-- ==== Sys2Proof/Machine/Step.lean ====
section
/-! DEFINITION. One step of the machine, and a command placed where the next step takes it. -/

namespace Sys2Proof.Machine

/-- One step of whichever agent moves next (00_scope.md R10). -/
def step (s : State) : Host.Outcome State Fault Refusal := machineStep s

/-- `s` with the command word whose bits are `w` presented next to an idle engine, so that the very
next step accepts and runs it (log 15). -/
def State.withFetchWord (s : State) (nbits w : Nat) : State :=
  s.present (BitVec.ofNat 64 (w % 2 ^ nbits))

end Sys2Proof.Machine
end

