-- ==== Sys2Proof/Machine/Assembler.lean ====
section
/-! DEFINITION. The assembler: a line of text to a command, the four pseudo-instructions among them (30_encoding.md R120, R121). It is the host's notation, no part of the machine's step. -/

namespace Sys2Proof.Machine

/-- A line of assembler text, or a piece of one. -/
abbrev Line := List Char

/-- What a line assembles to. -/
inductive AsmResult where
  /-- An empty line, or a comment alone. DESIGN CHOICE: such a line is no error; R120 speaks of lines
  that hold a command and is silent on it (log 24). -/
  | blank
  | command (i : Instr)
  /-- An assembly error, not a command (30_encoding.md R120). -/
  | error
deriving DecidableEq, Repr

/-- A space or a tab. DESIGN CHOICE: these two separate the parts of a line (log 24). -/
def isBlank (c : Char) : Bool := c == ' ' || c == '\t'

/-- The piece without blanks at its ends. -/
def trim (l : Line) : Line := ((l.dropWhile isBlank).reverse.dropWhile isBlank).reverse

/-- The value of a digit: its place among the digits of the base, 10 or 16. DESIGN CHOICE: a letter
counts in either case (log 24). -/
def digitValue (base : Nat) (c : Char) : Option Nat :=
  ("0123456789ABCDEF".toList.take base).idxOf? c.toUpper

/-- The number spelled by the digits after those already read. -/
def digitsValue (base : Nat) : Nat → Line → Option Nat
  | acc, [] => some acc
  | acc, c :: l => (digitValue base c).bind fun d => digitsValue base (acc * base + d) l

/-- A number: decimal, or hexadecimal with the prefix `0x` (30_encoding.md R120). -/
def number : Line → Option Nat
  | '0' :: 'x' :: c :: l => digitsValue 16 0 (c :: l)
  | c :: l => digitsValue 10 0 (c :: l)
  | [] => none

/-- A byte operand: a number that fits 8 bits. -/
def byteOperand (l : Line) : Option Byte :=
  (number l).bind fun n => if n < 256 then some (BitVec.ofNat 8 n) else none

/-- `A1` or `A2`. -/
def nameOperand (l : Line) : Option AlarmName :=
  if l = "A1".toList then some .a1 else if l = "A2".toList then some .a2 else none

/-- The four mode words (30_encoding.md R120). -/
def modeOperand (l : Line) : Option AlarmMode :=
  if l = "MINUTE".toList then some .minute
  else if l = "HOURMINUTE".toList then some .hourMinute
  else if l = "DATEHOURMINUTE".toList then some .dateHourMinute
  else if l = "WEEKDAYHOURMINUTE".toList then some .weekdayHourMinute
  else none

/-- `0` or `1`. -/
def enableOperand (l : Line) : Option Bool :=
  match number l with
  | some 0 => some false
  | some 1 => some true
  | _ => none

/-- The commands without operands, and the two pseudo-instructions without any (30_encoding.md R120,
R121). -/
def bareCommands : List (String × Instr) := [
  ("YEAR", .year), ("MONTH", .month), ("DATE", .date), ("WDAY", .wday), ("DAYNAME", .dayname),
  ("HOUR", .hour), ("MIN", .min), ("SEC", .sec), ("RDSTAT", .rdstat), ("RDCTL", .rdctl),
  ("TEMPH", .temph), ("TEMPL", .templ), ("TIMESTR", .timestr), ("DATESTR", .datestr),
  ("UNIXTS", .unixts), ("GINTON", .gint true), ("GINTOFF", .gint false)]

/-- The commands with operands, in the operand order of 30_encoding.md R120, and the
pseudo-instructions AION and AIOFF (R121). -/
def operandCommand (mn : Line) (ops : List Line) : Option Instr :=
  if mn = "RDREG".toList then
    match ops with
    | [a] => (byteOperand a).map .rdreg
    | _ => none
  else if mn = "WRREG".toList then
    match ops with
    | [a, v] => (byteOperand a).bind fun a => (byteOperand v).map (.wrreg a)
    | _ => none
  else if mn = "BCD2DEC".toList then
    match ops with
    | [v] => (byteOperand v).map .bcd2dec
    | _ => none
  else if mn = "DEC2BCD".toList then
    match ops with
    | [v] => (byteOperand v).map .dec2bcd
    | _ => none
  else if mn = "LEAP".toList then
    match ops with
    | [y] => (number y).map .leap
    | _ => none
  else if mn = "EPOCH".toList then
    match ops.mapM number with
    | some [y, mo, d, h, mi, s] => some (.epoch y mo d h mi s)
    | _ => none
  else if mn = "SETALM".toList then
    match ops with
    | n :: m :: rest =>
      match nameOperand n, modeOperand m, rest.mapM number with
      | some n, some m, some [d, wd, h, mi] => some (.setalm n m d wd h mi)
      | _, _, _ => none
    | _ => none
  else if mn = "AIE".toList then
    match ops with
    | [n, e] => (nameOperand n).bind fun n => (enableOperand e).map (.aie n)
    | _ => none
  else if mn = "AION".toList then
    match ops with
    | [n] => (nameOperand n).map (.aie · true)
    | _ => none
  else if mn = "AIOFF".toList then
    match ops with
    | [n] => (nameOperand n).map (.aie · false)
    | _ => none
  else if mn = "ACLR".toList then
    match ops with
    | [n] => (nameOperand n).map .aclr
    | _ => none
  else if mn = "GINT".toList then
    match ops with
    | [e] => (enableOperand e).map .gint
    | _ => none
  else if mn = "SETDT".toList then
    match ops.mapM number with
    | some [y, mo, d, wd, h, mi, s] => some (.setdt y mo d wd h mi s)
    | _ => none
  else none

/-- The command of a mnemonic and its operand text. -/
def commandOf (mn rest : Line) : Option Instr :=
  if rest = [] then (bareCommands.find? fun c => c.1.toList == mn).map (·.2)
  else operandCommand mn ((rest.splitOn ',').map trim)

/-- One line: a mnemonic in capitals, its operands separated by commas, a comment from `;` on. An
operand that does not fit its field is an assembly error (30_encoding.md R120). DESIGN CHOICE: a line
without a mnemonic is `blank` (log 24). -/
def assembleLine (l : Line) : AsmResult :=
  let body := trim (l.takeWhile (· != ';'))
  if body = [] then .blank
  else match commandOf (body.takeWhile (!isBlank ·)) (trim (body.dropWhile (!isBlank ·))) with
    | some i => if i.WellFormed then .command i else .error
    | none => .error

/-- A program: the command words of its lines in order, or nothing if a line is in error. DESIGN
CHOICE: a blank line stands for no command and is skipped (log 24). -/
def assemble : List Line → Option (List Word64)
  | [] => some []
  | l :: ls =>
    match assembleLine l with
    | .blank => assemble ls
    | .command i => (assemble ls).map (encode i :: ·)
    | .error => none

end Sys2Proof.Machine
end

