-- ==== Sys2Proof/Safety.lean ====
section
/-! DEFINITION. The terms in which claims speak: legal operands, quiet buses and serialised hosts as premises, the registers a command writes, whole commands as runs of engine steps, the end of a run, hangs, and the invariant of the machine. -/

namespace Sys2Proof.Machine

/-- The legal operand ranges (45_alarm_config.md R271, 48_datetime_set.md R321, 44_timestamp.md R247);
every operand of the other commands is legal (60_exceptions.md R342). -/
def legalOperands : Instr → Bool
  | .setdt y mo d wd h mi s =>
    2000 ≤ y && y ≤ 2099 && 1 ≤ mo && mo ≤ 12 && 1 ≤ d && d ≤ 31 && 1 ≤ wd && wd ≤ 7 &&
      h ≤ 23 && mi ≤ 59 && s ≤ 59
  | .setalm _ _ d wd h mi => 1 ≤ d && d ≤ 31 && 1 ≤ wd && wd ≤ 7 && h ≤ 23 && mi ≤ 59
  | .epoch y mo d h mi s =>
    2000 ≤ y && y ≤ 2099 && 1 ≤ mo && mo ≤ 12 && 1 ≤ d && d ≤ 31 && h ≤ 23 && mi ≤ 59 && s ≤ 59
  | .rdreg _ | .wrreg _ _ | .bcd2dec _ | .dec2bcd _ => true
  | .year | .month | .date | .wday | .dayname | .hour | .min | .sec => true
  | .rdstat | .rdctl | .temph | .templ | .timestr | .datestr | .unixts => true
  | .leap _ | .aie _ _ | .aclr _ | .gint _ => true

/-- The engine is idle: no command in flight (10_state.md R26). -/
def State.Idle (s : State) : Prop := s.busy = false

/-- The engine is in the middle of a command: `n` transactions done, the bytes `ts` read, no
transaction pending. -/
def State.InFlight (s : State) (n : Nat) (ts : List Byte) : Prop :=
  s.busy = true ∧ s.transferring = false ∧ s.stepNo = n ∧ s.temps = ts

/-- Premise: every transaction to come completes `Ok` and a read returns the chip's byte
(20_memory.md R63). -/
def State.BusGood (s : State) : Prop := s.answers = []

/-- Premise: the host keeps its serialisation duty and the chip is left alone: only the engine moves
(70_reset_and_hazards.md R390, 20_memory.md R80 with `CHIP_ENV = STATIC`). -/
def State.Undisturbed (s : State) : Prop := ∀ m ∈ s.agenda, m = Move.engine

/-- The run has ended: the last response has been delivered (00_scope.md R12). -/
def State.RunEnded (s : State) : Prop := s.busy = false ∧ s.commands.length ≤ s.cix

/-- The engine waits for a transaction that never completes (20_memory.md R64). -/
def State.Hung (s : State) : Prop :=
  s.busy = true ∧ s.transferring = true ∧
    ∃ i, decode s.cmd = .ok i ∧ s.stepNo < i.busCount

/-- The state after a response `r`: the command is over, `cix` one higher, nothing else of the machine
changed (30_encoding.md R125, 60_exceptions.md R345). -/
def State.answered (s : State) (r : Response) : State :=
  { s with
    busy := false
    transferring := false
    temps := []
    cix := s.cix + 1
    responses := s.responses ++ [r] }

/-- The response `OK v` with a text (30_encoding.md R125). -/
def okResponse (v : Nat) (txt : Text) : Response := ⟨.ok, 0, BitVec.ofNat 32 v, txt⟩

/-- The response of a fault (60_exceptions.md R345). -/
def faultResponse (f : Status) (info : Nat) : Response := ⟨f, BitVec.ofNat 8 info, 0, []⟩

/-- `k` engine steps of one command, one after another, with no other agent in between. -/
def execFor : Nat → Instr → State → Host.Outcome State Fault Refusal
  | 0, _, s => .next s
  | k + 1, i, s =>
    match exec i s with
    | .next t => execFor k i t
    | .fault r => .fault r
    | .refused r => .refused r

/-- The whole command, accept to respond, runs to its end and leaves the state `t`. -/
def Completes (i : Instr) (s t : State) : Prop := execFor (i.busCount + 2) i s = .next t

/-- What a completed command leaves of the engine and the host: idle, one response `r` more. -/
def State.Answered (s t : State) (r : Response) : Prop :=
  t.busy = false ∧ t.cix = s.cix + 1 ∧ t.responses = s.responses ++ [r] ∧
    t.cfg = s.cfg ∧ t.commands = s.commands ∧ t.agenda = s.agenda ∧ t.answers = s.answers

/-- The whole command reads the chip and writes nothing: it completes with the response `r`, and every
register keeps its byte. -/
def ReadsAndAnswers (i : Instr) (s : State) (r : Response) : Prop :=
  ∃ t, Completes i s t ∧ s.Answered t r ∧ t.mem = s.mem

/-- The registers that the write transaction of a command addresses (93_implementation_defined.md
U5): none for the commands that only read or compute. -/
def writtenRegisters : Instr → List Nat
  | .wrreg a _ => [a.toNat]
  | .setalm .a1 _ _ _ _ _ => [0x08, 0x09, 0x0A]
  | .setalm .a2 _ _ _ _ _ => [0x0B, 0x0C, 0x0D]
  | .aie _ _ | .gint _ => [0x0E]
  | .aclr _ => [0x0F]
  | .setdt _ _ _ _ _ _ _ => [0x00, 0x01, 0x02, 0x03, 0x04, 0x05, 0x06]
  | .rdreg _ | .bcd2dec _ | .dec2bcd _ | .leap _ | .epoch _ _ _ _ _ _ => []
  | .year | .month | .date | .wday | .dayname | .hour | .min | .sec => []
  | .rdstat | .rdctl | .temph | .templ | .timestr | .datestr | .unixts => []

/-- The command's write, if it has one, stays inside the map, or the device is the reference device:
the case in which the chip's registers are known afterwards (20_memory.md R72). -/
def staysInMap (s : State) : Instr → Prop
  | .wrreg a _ => a.toNat ≤ 0x12 ∨ s.cfg.device = .reference
  | _ => True

/-- A register that holds what is written to it: any on the reference device; on a real chip any but
the status and temperature registers (93_implementation_defined.md U6, log 9). -/
def keepsWrites (s : State) (a : Nat) : Prop :=
  s.cfg.device = .reference ∨ (a ≠ 0x0F ∧ a ≠ 0x11 ∧ a ≠ 0x12)

/-- A state without what an idle engine may still hold of its last command (10_state.md R20). -/
def State.withoutResidue (s : State) : State :=
  if s.busy then s else { s with cmd := 0, stepNo := 0, temps := [], transferring := false }

/-- The invariant of the machine. -/
structure State.Inv (s : State) : Prop where
  /-- The register file is in its canonical form. -/
  memory : Memory.wf s.mem = true
  /-- A command in flight is a command with legal operands, no further than its rule goes, with one
  temporary per register read so far (10_state.md R23, R26). -/
  inFlight : s.busy = true → ∃ i, decode s.cmd = .ok i ∧ legalOperands i = true ∧
    s.stepNo ≤ i.busCount ∧ s.temps.length = s.stepNo / 2
  /-- Only a command with a transaction left can wait for one (20_memory.md R64). -/
  waiting : s.transferring = true → s.Hung
  /-- One response per command (10_state.md R24). -/
  counted : s.cix = s.responses.length
  /-- Every transaction of the engine goes to the chip (10_state.md R21). -/
  addressed : ∀ r ∈ s.trace, r.device = devAddr

end Sys2Proof.Machine
end

