-- ==== Sys2Proof/Certificates/Slice0/Obligations.lean ====
section
/-! DEFINITION. The statements for the provers. Each docstring names the rule of spec/ it formalises. -/

open Sys2Proof Sys2Proof.Machine

/-! ## The command word -/

/-- 30_encoding.md R103, R104: decoding the word of a well-formed command gives the command back, with
every operand at every value its field admits. -/
def Obligations.DecodeAfterEncode : Prop :=
  ∀ i : Instr, i.WellFormed = true → decode (encode i) = .ok i

/-- 30_encoding.md R104, R115: a word that decodes is the word of the command it decodes to, so two
different words never decode to one command, and the command fits its fields. -/
def Obligations.EncodeAfterDecode : Prop :=
  ∀ (w : Word64) (i : Instr), decode w = .ok i → i.WellFormed = true ∧ encode i = w

/-- 30_encoding.md R104: a word selects a row of the opcode map, `(w & mask) = match`, exactly when it
decodes to a command of that row. -/
def Obligations.DecoderSelectsTheTableRow : Prop :=
  ∀ (w : Word64) (r : OpcodeRow), r ∈ opcodeMap →
    (r.selects w ↔ ∃ i, decode w = .ok i ∧ i.mnemonic = r.mnemonic)

/-- 30_encoding.md R115, 60_exceptions.md R341: the decoder refuses a word because its opcode is in no
row, or because the opcode is in a row and a fixed bit of that row is wrong. -/
def Obligations.DecoderRefusesByCause : Prop :=
  ∀ w : Word64,
    (decode w = .error .unknownOpcode ↔ ∀ r ∈ opcodeMap, w >>> 56 ≠ r.fixed >>> 56) ∧
    (decode w = .error .reservedBit ↔
      ∃ r ∈ opcodeMap, w >>> 56 = r.fixed >>> 56 ∧ ¬ r.selects w)

/-- Words written out by hand from 30_encoding.md R103 and R110, one of each format. -/
def Obligations.SampleWordsDecode : Prop :=
  decode 0x010000000000000E = .ok (.rdreg 0x0E) ∧
  decode 0x0200000000000E04 = .ok (.wrreg 0x0E 0x04) ∧
  decode 0x1000000000000059 = .ok (.bcd2dec 0x59) ∧
  decode 0x110000000000001E = .ok (.dec2bcd 30) ∧
  decode 0x2400000000000000 = .ok .dayname ∧
  decode 0x410000000000076C = .ok (.leap 1900) ∧
  decode 0x420000FD06100000 = .ok (.epoch 2024 3 1 0 0 0) ∧
  decode 0x50000000003BE35E = .ok (.setalm .a2 .weekdayHourMinute 15 4 13 30) ∧
  decode 0x6000000000000101 = .ok (.aie .a2 true) ∧
  decode 0x7000000000000100 = .ok (.aclr .a2) ∧
  decode 0x7100000000000001 = .ok (.gint true) ∧
  decode 0x800000FD061A0000 = .ok (.setdt 2024 3 1 5 0 0 0) ∧
  decode 0x420000FD061A0000 = .error .reservedBit ∧
  decode 0x9900000000000000 = .error .unknownOpcode

/-- 30_encoding.md R121: the four pseudo-instructions and what each expands to. -/
def Obligations.PseudoInstructionsExpand : Prop :=
  assembleLine "AION A1".toList = assembleLine "AIE A1, 1".toList ∧
  assembleLine "AION A2".toList = assembleLine "AIE A2, 1".toList ∧
  assembleLine "AIOFF A1".toList = assembleLine "AIE A1, 0".toList ∧
  assembleLine "AIOFF A2".toList = assembleLine "AIE A2, 0".toList ∧
  assembleLine "GINTON".toList = assembleLine "GINT 1".toList ∧
  assembleLine "GINTOFF".toList = assembleLine "GINT 0".toList ∧
  assembleLine "AIE A1, 1".toList = .command (.aie .a1 true) ∧
  assembleLine "AIE A2, 1".toList = .command (.aie .a2 true) ∧
  assembleLine "AIE A1, 0".toList = .command (.aie .a1 false) ∧
  assembleLine "AIE A2, 0".toList = .command (.aie .a2 false) ∧
  assembleLine "GINT 1".toList = .command (.gint true) ∧
  assembleLine "GINT 0".toList = .command (.gint false)

/-! ## The step -/

/-- 10_state.md R24, R26: when it is the engine's move and the word it works on is the word of a
command, a step is one engine step of that command. -/
def Obligations.StepRunsTheCommand : Prop :=
  ∀ (s : State) (i : Instr), i.WellFormed = true → s.currentWord = some (encode i) →
    (s.agenda = [] → step s = exec i s) ∧
    (∀ rest, s.agenda = .engine :: rest → step s = exec i { s with agenda := rest })

/-- Log 15, the model's choice of how a command is presented: a command word placed for the host to
present is the one the next step runs. -/
def Obligations.PlacedWordRunsNext : Prop :=
  ∀ (s : State) (i : Instr), i.WellFormed = true →
    step (s.withFetchWord 64 (encode i).toNat) = exec i (s.withFetchWord 64 (encode i).toNat)

/-- 10_state.md R26 (a): an idle engine accepts a command with legal operands: `cmd <- w`, `step <- 0`,
`busy <- 1`, and nothing else changes. -/
def Obligations.AcceptTakesTheCommand : Prop :=
  ∀ (i : Instr) (s : State), s.Idle → legalOperands i = true →
    exec i s = .next { s with
      busy := true, transferring := false, cmd := encode i, stepNo := 0, temps := [] }

/-- 60_exceptions.md R341, R345: a word whose opcode is none of the 26 is answered with
`IllegalCommand(0)`; one whose opcode is in the map with a reserved bit set, so that it does not
select its row, with `IllegalCommand(1)`. Nothing else of the machine changes: no transaction is
issued. No command that decodes is ever answered so. -/
def Obligations.IllegalCommandIsReported : Prop :=
  (∀ (s : State) (w : Word64), s.Idle → s.agenda = [] → s.commands[s.cix]? = some w →
    ((∀ r ∈ opcodeMap, w >>> 56 ≠ r.fixed >>> 56) →
      step s = .next (s.answered (faultResponse .illegalCommand 0))) ∧
    (∀ r ∈ opcodeMap, w >>> 56 = r.fixed >>> 56 → ¬ r.selects w →
      step s = .next (s.answered (faultResponse .illegalCommand 1)))) ∧
  (∀ (i : Instr) (s t : State) (r : Response), exec i s = .next t →
    t.responses = s.responses ++ [r] → r.status ≠ .illegalCommand)

/-- 60_exceptions.md R342: SETDT, SETALM and EPOCH check their operands in position order, the first
bad one is reported, and no transaction is issued; no other command refuses an operand. -/
def Obligations.FirstBadOperandIsReported : Prop :=
  (∀ (y mo d wd h mi sc : Nat) (s : State), s.Idle →
    let bad (k : Nat) := exec (.setdt y mo d wd h mi sc) s =
      .next (s.answered (faultResponse .invalidArgument k))
    let yOk := 2000 ≤ y ∧ y ≤ 2099
    let moOk := 1 ≤ mo ∧ mo ≤ 12
    let dOk := 1 ≤ d ∧ d ≤ 31
    let wdOk := 1 ≤ wd ∧ wd ≤ 7
    (¬ yOk → bad 1) ∧ (yOk → ¬ moOk → bad 2) ∧ (yOk → moOk → ¬ dOk → bad 3) ∧
    (yOk → moOk → dOk → ¬ wdOk → bad 4) ∧ (yOk → moOk → dOk → wdOk → 23 < h → bad 5) ∧
    (yOk → moOk → dOk → wdOk → h ≤ 23 → 59 < mi → bad 6) ∧
    (yOk → moOk → dOk → wdOk → h ≤ 23 → mi ≤ 59 → 59 < sc → bad 7)) ∧
  (∀ (n : AlarmName) (m : AlarmMode) (d wd h mi : Nat) (s : State), s.Idle →
    let bad (k : Nat) := exec (.setalm n m d wd h mi) s =
      .next (s.answered (faultResponse .invalidArgument k))
    let dOk := 1 ≤ d ∧ d ≤ 31
    let wdOk := 1 ≤ wd ∧ wd ≤ 7
    (¬ dOk → bad 3) ∧ (dOk → ¬ wdOk → bad 4) ∧ (dOk → wdOk → 23 < h → bad 5) ∧
    (dOk → wdOk → h ≤ 23 → 59 < mi → bad 6)) ∧
  (∀ (y mo d h mi sc : Nat) (s : State), s.Idle →
    let bad (k : Nat) := exec (.epoch y mo d h mi sc) s =
      .next (s.answered (faultResponse .invalidArgument k))
    let yOk := 2000 ≤ y ∧ y ≤ 2099
    let moOk := 1 ≤ mo ∧ mo ≤ 12
    let dOk := 1 ≤ d ∧ d ≤ 31
    (¬ yOk → bad 1) ∧ (yOk → ¬ moOk → bad 2) ∧ (yOk → moOk → ¬ dOk → bad 3) ∧
    (yOk → moOk → dOk → 23 < h → bad 4) ∧ (yOk → moOk → dOk → h ≤ 23 → 59 < mi → bad 5) ∧
    (yOk → moOk → dOk → h ≤ 23 → mi ≤ 59 → 59 < sc → bad 6)) ∧
  (∀ (i : Instr) (s t : State) (r : Response), exec i s = .next t →
    t.responses = s.responses ++ [r] → r.status = .invalidArgument →
    (∃ y mo d wd h mi sc, i = .setdt y mo d wd h mi sc) ∨
    (∃ n m d wd h mi, i = .setalm n m d wd h mi) ∨ (∃ y mo d h mi sc, i = .epoch y mo d h mi sc))

/-- 10_state.md R24, log 15: an idle engine to which no command is presented waits. -/
def Obligations.IdleEngineWaits : Prop :=
  ∀ s : State, s.RunEnded → s.agenda = [] → step s = .next s

/-! ## Bus outcomes -/

/-- 60_exceptions.md R343, R345, 20_memory.md R69: the transaction that ends in `Error` ends the command
with `BusError(i)`, `i` its index, and it is the last transaction the command issues. -/
def Obligations.BusErrorEndsTheCommand : Prop :=
  ∀ (i : Instr) (s : State) (left : List Byte) (rest : List Answer),
    s.busy = true → s.transferring = false → s.stepNo < i.busCount →
    s.answers = .error left :: rest →
    ∃ t x, exec i s = .next t ∧ t.busy = false ∧ t.cix = s.cix + 1 ∧ t.temps = [] ∧
      t.responses = s.responses ++ [faultResponse .busError s.stepNo] ∧
      t.trace = s.trace ++ [⟨0x68, x, .failed⟩] ∧ t.answers = rest

/-- 20_memory.md R64: a transaction that never completes leaves the engine busy for ever, with no
response and no later command, unless a reset comes, which frees it. -/
def Obligations.HangIsForEver : Prop :=
  (∀ (s : State), s.Hung → (∀ m ∈ s.agenda, m ≠ Move.reset) →
    ∀ k, ∃ t, Host.Core.run core k s = .next t ∧ t.Hung ∧ t.cmd = s.cmd ∧
      t.responses = s.responses ∧ t.cix = s.cix ∧ t.trace = s.trace) ∧
  (∀ (i : Instr) (s : State) (left : List Byte) (rest : List Answer),
    s.busy = true → s.transferring = false → s.stepNo < i.busCount → decode s.cmd = .ok i →
    s.answers = .never left :: rest →
    ∃ t, exec i s = .next t ∧ t.Hung ∧ t.responses = s.responses ∧ t.cix = s.cix) ∧
  (∀ (s : State) (rest : List Move), s.Hung → s.agenda = .reset :: rest →
    ∃ t, step s = .next t ∧ t.Idle ∧ t.transferring = false)

/-- 10_state.md R51: a reset of the engine while a command is in flight drops the command without a
response; the chip, the transactions already issued and `cix` stay as they are. The rest is the
model's choice: the pending transaction is forgotten (log 3), `cmd`, `stepNo` and `temps` keep what
they held, which R50 and R53 leave unspecified (log 4), and the outcomes and moves still to come stay
(log 29). -/
def Obligations.ResetDropsTheCommand : Prop :=
  ∀ (s : State) (rest : List Move), s.busy = true → s.agenda = .reset :: rest →
    step s = .next { s with agenda := rest, busy := false, transferring := false }

/-! ## Frames -/

/-- 20_memory.md R66, R67, R73, 93_implementation_defined.md U5: whatever the outcome of a transaction,
an engine step of any of the 26 commands changes no register but those the command's write addresses;
the commands that only read or compute change none. -/
def Obligations.OnlyAddressedRegistersChange : Prop :=
  ∀ (i : Instr) (s t : State), exec i s = .next t → staysInMap s i →
    ∀ a, a ≤ 0x12 → a ∉ writtenRegisters i → t.regByte a = s.regByte a

/-- 00_scope.md R10, R11, 10_state.md R24: an engine step of any of the 26 commands issues at most one
transaction and delivers at most one response, raises `cix` by the number of responses, and leaves
the parameters, the host's commands and the other agents' moves alone; while a command is in flight
its word is constant, and no temporary written is lost or changed (10_state.md R23, R26). -/
def Obligations.EngineStepFrame : Prop :=
  ∀ (i : Instr) (s t : State), exec i s = .next t →
    t.cfg = s.cfg ∧ t.commands = s.commands ∧ t.agenda = s.agenda ∧
    (∃ l, t.trace = s.trace ++ l ∧ l.length ≤ 1) ∧
    (∃ l, t.responses = s.responses ++ l ∧ l.length ≤ 1 ∧ t.cix = s.cix + l.length) ∧
    (t.answers = s.answers ∨ t.answers = s.answers.tail) ∧
    (s.busy = true → t.cmd = s.cmd ∧ (t.busy = true →
      (t.stepNo = s.stepNo ∨ t.stepNo = s.stepNo + 1) ∧
      ∃ l, t.temps = s.temps ++ l ∧ l.length ≤ 1))

/-- 10_state.md R26 (a), (c), 60_exceptions.md R342: accepting or refusing a command, and responding,
touch neither the bus nor the chip. -/
def Obligations.NoTrafficOutsideTransactions : Prop :=
  ∀ (i : Instr) (s t : State), exec i s = .next t → (s.busy = true → i.busCount ≤ s.stepNo) →
    t.mem = s.mem ∧ t.ap = s.ap ∧ t.trace = s.trace ∧ t.answers = s.answers

/-- 10_state.md R20, R27: what an idle engine still holds of its last command has no influence on the
next one. -/
def Obligations.NoStateBetweenCommands : Prop :=
  ∀ (i : Instr) (s t : State) (w : Word64) (n : Nat) (ts : List Byte), s.Idle →
    exec i s = .next t →
    ∃ t', exec i { s with cmd := w, stepNo := n, temps := ts } = .next t' ∧
      t'.withoutResidue = t.withoutResidue

/-! ## One engine step of each command -/

/-- 20_memory.md R65, 10_state.md R45, 20_memory.md R63, 43_string_format.md R221, R222, 44_timestamp.md
R245: a command reads its registers one after another in the order of its rule. For the `j`-th it
sends the address in transaction `2j`, and in transaction `2j + 1` reads one byte: the byte the
pointer names, or, if the bus layer hides a failure, any byte; that byte becomes `t[j]`. The
read-modify-write commands begin the same way. -/
def Obligations.ReadIsAddressThenByte : Prop :=
  ∀ (i : Instr) (addrs : List Byte) (j : Nat) (a : Byte) (ts : List Byte) (s : State),
    ((i, addrs) ∈ [(Instr.year, [(0x06 : Byte)]), (.month, [0x05]), (.date, [0x04]), (.wday, [0x03]),
      (.dayname, [0x03]), (.hour, [0x02]), (.min, [0x01]), (.sec, [0x00]), (.rdstat, [0x0F]),
      (.rdctl, [0x0E]), (.temph, [0x11]), (.templ, [0x12]), (.timestr, [0x02, 0x01, 0x00]),
      (.datestr, [0x04, 0x05, 0x06]), (.unixts, [0x06, 0x05, 0x04, 0x02, 0x01, 0x00])] ∨
      (∃ r, i = .rdreg r ∧ addrs = [r]) ∨ ((∃ n en, i = .aie n en) ∧ addrs = [0x0E]) ∨
      ((∃ n, i = .aclr n) ∧ addrs = [0x0F]) ∨ ((∃ en, i = .gint en) ∧ addrs = [0x0E])) →
    addrs[j]? = some a → ts.length = j →
    (s.InFlight (2 * j) ts → s.BusGood →
      exec i s = .next { s with
        ap := a, stepNo := 2 * j + 1, trace := s.trace ++ [⟨0x68, .write a [], .done none⟩] }) ∧
    (s.InFlight (2 * j + 1) ts → s.BusGood → s.ap.toNat ≤ 0x12 →
      ∃ t, exec i s = .next t ∧ t.InFlight (2 * j + 2) (ts ++ [s.regByte s.ap.toNat]) ∧
        t.mem = s.mem ∧ t.responses = s.responses ∧
        t.trace = s.trace ++ [⟨0x68, .read, .done (some (s.regByte s.ap.toNat))⟩]) ∧
    (∀ b rest, s.InFlight (2 * j + 1) ts → s.answers = .okWith b :: rest →
      ∃ t, exec i s = .next t ∧ t.InFlight (2 * j + 2) (ts ++ [b]) ∧ t.mem = s.mem ∧
        t.answers = rest ∧ t.trace = s.trace ++ [⟨0x68, .read, .done (some b)⟩])

/-- 42_field_accessors.md R185 to R188, R190 to R192: from the byte read, the response of each decoding
accessor, for every byte; MONTH with the mask the parameter selects. Nothing else changes. -/
def Obligations.AccessorsAnswer : Prop :=
  ∀ (s : State) (b : Byte), s.InFlight 2 [b] →
    let ok (v : Nat) := Host.Outcome.next (s.answered (okResponse v []))
    exec .year s = ok (2000 + clamp (bcdToDecimal b) 0 99) ∧
    (s.cfg.monthMask = .none → exec .month s = ok (clamp (bcdToDecimal b) 1 12)) ∧
    (s.cfg.monthMask = .stripCentury → exec .month s = ok (clamp (bcdToDecimal (b &&& 0x1F)) 1 12)) ∧
    exec .date s = ok (clamp (bcdToDecimal b) 1 31) ∧
    exec .wday s = ok (clamp (bcdToDecimal b) 1 7) ∧
    exec .hour s = ok (clamp (bcdToDecimal b) 0 23) ∧
    exec .min s = ok (clamp (bcdToDecimal b) 0 59) ∧
    exec .sec s = ok (clamp (bcdToDecimal b) 0 59)

/-- 42_field_accessors.md R193 to R196, 40_register_access.md R141: these five answer with the byte as
it was read. -/
def Obligations.RawReadsAnswer : Prop :=
  ∀ (s : State) (b a : Byte), s.InFlight 2 [b] →
    let ok := Host.Outcome.next (s.answered (okResponse b.toNat []))
    exec .rdstat s = ok ∧ exec .rdctl s = ok ∧ exec .temph s = ok ∧ exec .templ s = ok ∧
      exec (.rdreg a) s = ok

/-- 42_field_accessors.md R189: DAYNAME answers with its index, clamped to 8, and with the name for
1..7; for index 8 the text may be anything. -/
def Obligations.DaynameAnswers : Prop :=
  ∀ (s : State) (b : Byte) (k : Nat), s.InFlight 2 [b] → k = clamp (bcdToDecimal b) 1 8 →
    (∀ j : Fin 7, k = j.val + 1 →
      exec .dayname s = .next (s.answered (okResponse k s.cfg.dayNames[j]))) ∧
    (7 < k → ∃ (txt : Text) (n : Nat),
      exec .dayname s = .next { s.answered (okResponse 8 txt) with draws := n })

/-- 41_bcd_codec.md R162, R163, 44_timestamp.md R246, R247: the four commands without bus traffic
answer right after they are accepted. -/
def Obligations.PureCommandsAnswer : Prop :=
  ∀ (s : State) (v : Byte) (y mo d h mi sc : Nat), s.InFlight 0 [] →
    let ok (n : Nat) := Host.Outcome.next (s.answered (okResponse n []))
    exec (.bcd2dec v) s = ok (v.toNat / 16 * 10 + v.toNat % 16) ∧
    exec (.dec2bcd v) s = ok (v.toNat / 10 * 16 + v.toNat % 10) ∧
    exec (.leap y) s = ok (if y % 4 = 0 ∧ (y % 100 ≠ 0 ∨ y % 400 = 0) then 1 else 0) ∧
    exec (.epoch y mo d h mi sc) s = ok (epochSeconds y mo d h mi sc)

/-- 43_string_format.md R221, R222, 00_scope.md R9: from the three bytes read, the text of TIMESTR and
of DATESTR, every character spelled out: date and month have no leading zero, and the year is `20`
and the two digits of its register. -/
def Obligations.StringsAnswer : Prop :=
  ∀ (s : State) (b0 b1 b2 : Byte), s.InFlight 6 [b0, b1, b2] →
    let digits (v : Nat) : Text := [BitVec.ofNat 8 (0x30 + v / 10), BitVec.ofNat 8 (0x30 + v % 10)]
    let numeral (v : Nat) : Text := if v < 10 then [BitVec.ofNat 8 (0x30 + v)] else digits v
    exec .timestr s = .next (s.answered (okResponse 0
      (digits (clamp (bcdToDecimal b0) 0 23) ++ [0x3A] ++ digits (clamp (bcdToDecimal b1) 0 59) ++
        [0x3A] ++ digits (clamp (bcdToDecimal b2) 0 59)))) ∧
    exec .datestr s = .next (s.answered (okResponse 0
      (numeral (clamp (bcdToDecimal b0) 1 31) ++ [0x2E] ++
        numeral (clamp (bcdToDecimal (b1 &&& 0x1F)) 1 12) ++ [0x2E] ++
        [0x32, 0x30] ++ digits (clamp (bcdToDecimal b2) 0 99))))

/-- 44_timestamp.md R245: from the six bytes read, the answer of UNIXTS. -/
def Obligations.UnixtsAnswers : Prop :=
  ∀ (s : State) (b0 b1 b2 b3 b4 b5 : Byte), s.InFlight 12 [b0, b1, b2, b3, b4, b5] →
    exec .unixts s = .next (s.answered (okResponse
      (epochSeconds (2000 + clamp (bcdToDecimal b0) 0 99)
        (clamp (bcdToDecimal (b1 &&& monthMaskByte s.cfg.monthMask)) 1 12)
        (clamp (bcdToDecimal b2) 1 31) (clamp (bcdToDecimal b3) 0 23)
        (clamp (bcdToDecimal b4) 0 59) (clamp (bcdToDecimal b5) 0 59)) []))

/-- 40_register_access.md R142, 45_alarm_config.md R272, 48_datetime_set.md R322: the one transaction of
WRREG, SETALM and SETDT carries exactly these bytes, and then the command answers `OK 0`. -/
def Obligations.SettersSendOneBlock : Prop :=
  ∀ (s : State) (i : Instr) (a : Byte) (data : List Byte),
    ((∃ v, i = .wrreg a v ∧ data = [v]) ∨
     (∃ n m d wd h mi, i = .setalm n m d wd h mi ∧ a = (if n = .a1 then 0x08 else 0x0B) ∧
       data = [BitVec.ofNat 8 (decimalToBcd mi), alarmHourByte m h, dayDateByte m d wd]) ∨
     (∃ y mo d wd h mi sc, i = .setdt y mo d wd h mi sc ∧ a = 0x00 ∧
       data = [sc, mi, h, wd, d, mo, y - 2000].map fun v => BitVec.ofNat 8 (decimalToBcd v))) →
    (s.InFlight 0 [] → s.BusGood → ∃ t, exec i s = .next t ∧ t.InFlight 1 [] ∧
      t.responses = s.responses ∧ t.trace = s.trace ++ [⟨0x68, .write a data, .done none⟩]) ∧
    (s.InFlight 1 [] → exec i s = .next (s.answered (okResponse 0 [])))

/-- 46_alarm_interrupt_enable.md R293: for every byte read from the control register, the byte AIE
writes back; the other bits are as read; enabling twice is enabling once, and enabling and then
disabling leaves the bit 0 and the rest as it was. -/
def Obligations.AieWritesBack : Prop :=
  (∀ (s : State) (c : Byte) (n : AlarmName) (en : Bool) (v : Byte), s.InFlight 2 [c] → s.BusGood →
    v = (match n, en with
      | .a1, true => c ||| 0x01
      | .a1, false => c &&& 0xFE
      | .a2, true => c ||| 0x02
      | .a2, false => c &&& 0xFD) →
    (∃ t, exec (.aie n en) s = .next t ∧ t.InFlight 3 [c] ∧ t.responses = s.responses ∧
      t.regByte 0x0E = v ∧ t.trace = s.trace ++ [⟨0x68, .write 0x0E [v], .done none⟩]) ∧
    v >>> 2 = c >>> 2 ∧ (n = .a1 → v &&& 0x02 = c &&& 0x02) ∧ (n = .a2 → v &&& 0x01 = c &&& 0x01) ∧
    setOrClear true (alarmMask n) (setOrClear true (alarmMask n) c) =
      setOrClear true (alarmMask n) c ∧
    setOrClear false (alarmMask n) (setOrClear true (alarmMask n) c) =
      c &&& not8 (alarmMask n)) ∧
  (∀ (s : State) (c : Byte) (n : AlarmName) (en : Bool), s.InFlight 3 [c] →
    exec (.aie n en) s = .next (s.answered (okResponse 0 [])))

/-- 47_flag_clear_global_int.md R306: for every byte read, the byte ACLR and GINT write back; clearing
twice is clearing once; and then both answer `OK 0`. -/
def Obligations.AclrAndGintWriteBack : Prop :=
  (∀ (s : State) (c : Byte) (n : AlarmName) (v : Byte), s.InFlight 2 [c] → s.BusGood →
    v = (match n with | .a1 => c &&& 0xFE | .a2 => c &&& 0xFD) →
    (∃ t, exec (.aclr n) s = .next t ∧ t.InFlight 3 [c] ∧ t.responses = s.responses ∧
      t.trace = s.trace ++ [⟨0x68, .write 0x0F [v], .done none⟩] ∧
      t.regByte 0x0F &&& alarmMask n = 0 ∧
      (s.cfg.device = .reference → t.regByte 0x0F = v)) ∧
    v &&& not8 (alarmMask n) = v) ∧
  (∀ (s : State) (c : Byte) (en : Bool) (v : Byte), s.InFlight 2 [c] → s.BusGood →
    v = (if en then c ||| 0x04 else c &&& 0xFB) →
    (∃ t, exec (.gint en) s = .next t ∧ t.InFlight 3 [c] ∧ t.responses = s.responses ∧
      t.regByte 0x0E = v ∧ t.trace = s.trace ++ [⟨0x68, .write 0x0E [v], .done none⟩]) ∧
    (if en then v ||| 0x04 = v else v &&& 0xFB = v)) ∧
  (∀ (s : State) (c : Byte) (n : AlarmName) (en : Bool), s.InFlight 3 [c] →
    exec (.aclr n) s = .next (s.answered (okResponse 0 [])) ∧
    exec (.gint en) s = .next (s.answered (okResponse 0 [])))

/-- 30_encoding.md R126: the range of the numeric result of every command, and the length of every
text, whatever bytes were read; for EPOCH with legal operands. -/
def Obligations.ResultsStayInTheirRanges : Prop :=
  ∀ (i : Instr) (s t : State), s.busy = true → i.busCount ≤ s.stepNo → legalOperands i = true →
    exec i s = .next t → ∃ r, t.responses = s.responses ++ [r] ∧ r.status = .ok ∧ r.info = 0 ∧
      match i with
      | .rdreg _ | .rdstat | .rdctl | .temph | .templ => r.value.toNat ≤ 255 ∧ r.text = []
      | .wrreg _ _ | .setalm _ _ _ _ _ _ | .aie _ _ | .aclr _ | .gint _ | .setdt _ _ _ _ _ _ _ =>
        r.value = 0 ∧ r.text = []
      | .bcd2dec _ => r.value.toNat ≤ 165 ∧ r.text = []
      | .dec2bcd _ => r.value.toNat ≤ 405 ∧ r.text = []
      | .year => 2000 ≤ r.value.toNat ∧ r.value.toNat ≤ 2099 ∧ r.text = []
      | .month => 1 ≤ r.value.toNat ∧ r.value.toNat ≤ 12 ∧ r.text = []
      | .date => 1 ≤ r.value.toNat ∧ r.value.toNat ≤ 31 ∧ r.text = []
      | .wday => 1 ≤ r.value.toNat ∧ r.value.toNat ≤ 7 ∧ r.text = []
      | .dayname => 1 ≤ r.value.toNat ∧ r.value.toNat ≤ 8 ∧
        ∀ j : Fin 7, r.value.toNat = j.val + 1 → r.text = s.cfg.dayNames[j]
      | .hour => r.value.toNat ≤ 23 ∧ r.text = []
      | .min | .sec => r.value.toNat ≤ 59 ∧ r.text = []
      | .timestr => r.value = 0 ∧ r.text.length = 8
      | .datestr => r.value = 0 ∧ 8 ≤ r.text.length ∧ r.text.length ≤ 10
      | .unixts | .epoch _ _ _ _ _ _ =>
        946684800 ≤ r.value.toNat ∧ r.value.toNat ≤ 4102444799 ∧ r.text = []
      | .leap _ => r.value.toNat ≤ 1 ∧ r.text = []

/-! ## Whole commands -/

/-- 10_state.md R26, 30_encoding.md R110, R125, 20_memory.md R75: on a good bus, with no other agent in
between, every command with legal operands completes in exactly one step more than its transactions
and one for its acceptance, with one `OK` response and exactly as many transactions as the opcode
map gives it, each of them to the chip; before that it has answered nothing. -/
def Obligations.EveryCommandCompletes : Prop :=
  ∀ (i : Instr) (s : State), s.Idle → s.BusGood → legalOperands i = true →
    (∃ t r l, Completes i s t ∧ s.Answered t r ∧ r.status = .ok ∧
      t.trace = s.trace ++ l ∧ l.length = i.busCount ∧ ∀ x ∈ l, x.device = 0x68) ∧
    (∀ k, 1 ≤ k → k < i.busCount + 2 → ∃ u, execFor k i s = .next u ∧ u.busy = true ∧
      u.responses = s.responses ∧ u.stepNo = k - 1)

/-- 42_field_accessors.md R183: on a good bus the twelve accessors answer from the register the table
names, and change no register; DAYNAME with the name of its index for 1..7. -/
def Obligations.AccessorsReadTheirRegister : Prop :=
  ∀ s : State, s.Idle → s.BusGood →
    ReadsAndAnswers .year s (okResponse (2000 + clamp (bcdToDecimal (s.regByte 0x06)) 0 99) []) ∧
    ReadsAndAnswers .month s (okResponse
      (clamp (bcdToDecimal (s.regByte 0x05 &&& monthMaskByte s.cfg.monthMask)) 1 12) []) ∧
    ReadsAndAnswers .date s (okResponse (clamp (bcdToDecimal (s.regByte 0x04)) 1 31) []) ∧
    ReadsAndAnswers .wday s (okResponse (clamp (bcdToDecimal (s.regByte 0x03)) 1 7) []) ∧
    (∃ txt, ReadsAndAnswers .dayname s
        (okResponse (clamp (bcdToDecimal (s.regByte 0x03)) 1 8) txt) ∧
      ∀ j : Fin 7, clamp (bcdToDecimal (s.regByte 0x03)) 1 8 = j.val + 1 →
        txt = s.cfg.dayNames[j]) ∧
    ReadsAndAnswers .hour s (okResponse (clamp (bcdToDecimal (s.regByte 0x02)) 0 23) []) ∧
    ReadsAndAnswers .min s (okResponse (clamp (bcdToDecimal (s.regByte 0x01)) 0 59) []) ∧
    ReadsAndAnswers .sec s (okResponse (clamp (bcdToDecimal (s.regByte 0x00)) 0 59) []) ∧
    ReadsAndAnswers .rdstat s (okResponse (s.regByte 0x0F).toNat []) ∧
    ReadsAndAnswers .rdctl s (okResponse (s.regByte 0x0E).toNat []) ∧
    ReadsAndAnswers .temph s (okResponse (s.regByte 0x11).toNat []) ∧
    ReadsAndAnswers .templ s (okResponse (s.regByte 0x12).toNat [])

/-- 40_register_access.md R141, 20_memory.md R68, R72, R81: RDREG sends any address unchanged; in the
map it answers with the register, above it with `0xFF` on the reference device and with some byte on
a real chip. -/
def Obligations.RdregReadsAnyAddress : Prop :=
  ∀ (a : Byte) (s : State), s.Idle → s.BusGood →
    ∃ b : Byte, ReadsAndAnswers (.rdreg a) s (okResponse b.toNat []) ∧
      (a.toNat ≤ 0x12 → b = s.regByte a.toNat) ∧
      (0x12 < a.toNat → s.cfg.device = .reference → b = 0xFF)

/-- 40_register_access.md R142, 20_memory.md R66, R75: what WRREG wrote, RDREG reads, wherever a
register keeps what is written to it; no other register changes. -/
def Obligations.RdregReadsWhatWrregWrote : Prop :=
  ∀ (a v : Byte) (s : State), s.Idle → s.BusGood → a.toNat ≤ 0x12 → keepsWrites s a.toNat →
    ∃ t, Completes (.wrreg a v) s t ∧ s.Answered t (okResponse 0 []) ∧ t.regByte a.toNat = v ∧
      (∀ c, c ≠ a.toNat → t.regByte c = s.regByte c) ∧
      ReadsAndAnswers (.rdreg a) t (okResponse v.toNat [])

/-- 43_string_format.md R221, R222, 00_scope.md R9: on a good bus TIMESTR and DATESTR print the
registers, every character spelled out. -/
def Obligations.StringsPrintTheRegisters : Prop :=
  ∀ s : State, s.Idle → s.BusGood →
    let digits (v : Nat) : Text := [BitVec.ofNat 8 (0x30 + v / 10), BitVec.ofNat 8 (0x30 + v % 10)]
    let numeral (v : Nat) : Text := if v < 10 then [BitVec.ofNat 8 (0x30 + v)] else digits v
    ReadsAndAnswers .timestr s (okResponse 0
      (digits (clamp (bcdToDecimal (s.regByte 0x02)) 0 23) ++ [0x3A] ++
        digits (clamp (bcdToDecimal (s.regByte 0x01)) 0 59) ++ [0x3A] ++
        digits (clamp (bcdToDecimal (s.regByte 0x00)) 0 59))) ∧
    ReadsAndAnswers .datestr s (okResponse 0
      (numeral (clamp (bcdToDecimal (s.regByte 0x04)) 1 31) ++ [0x2E] ++
        numeral (clamp (bcdToDecimal (s.regByte 0x05 &&& 0x1F)) 1 12) ++ [0x2E] ++
        [0x32, 0x30] ++ digits (clamp (bcdToDecimal (s.regByte 0x06)) 0 99)))

/-- 44_timestamp.md R245: on a good bus UNIXTS converts the six registers. -/
def Obligations.UnixtsConvertsTheRegisters : Prop :=
  ∀ s : State, s.Idle → s.BusGood →
    ReadsAndAnswers .unixts s (okResponse
      (epochSeconds (2000 + clamp (bcdToDecimal (s.regByte 0x06)) 0 99)
        (clamp (bcdToDecimal (s.regByte 0x05 &&& monthMaskByte s.cfg.monthMask)) 1 12)
        (clamp (bcdToDecimal (s.regByte 0x04)) 1 31) (clamp (bcdToDecimal (s.regByte 0x02)) 0 23)
        (clamp (bcdToDecimal (s.regByte 0x01)) 0 59)
        (clamp (bcdToDecimal (s.regByte 0x00)) 0 59)) [])

/-- 48_datetime_set.md R322: after a fault-free SETDT on a static chip the accessors return the
operands, with either month mask, and UNIXTS the time they spell; registers `0x07` to `0x12` are
untouched. -/
def Obligations.SetdtReadsBack : Prop :=
  ∀ (y mo d wd h mi sc : Nat) (s : State), s.Idle → s.BusGood →
    legalOperands (.setdt y mo d wd h mi sc) = true →
    ∃ t, Completes (.setdt y mo d wd h mi sc) s t ∧ s.Answered t (okResponse 0 []) ∧
      (∀ a, 0x07 ≤ a → t.regByte a = s.regByte a) ∧
      ReadsAndAnswers .year t (okResponse y []) ∧ ReadsAndAnswers .month t (okResponse mo []) ∧
      ReadsAndAnswers .date t (okResponse d []) ∧ ReadsAndAnswers .wday t (okResponse wd []) ∧
      ReadsAndAnswers .hour t (okResponse h []) ∧ ReadsAndAnswers .min t (okResponse mi []) ∧
      ReadsAndAnswers .sec t (okResponse sc []) ∧
      ReadsAndAnswers .unixts t (okResponse (epochSeconds y mo d h mi sc) [])

/-- 45_alarm_config.md R272, R274, R275: SETALM programs the three registers of its alarm, mode by
mode, and no other register: alarm 1's seconds register keeps its byte. -/
def Obligations.SetalmProgramsTheAlarm : Prop :=
  ∀ (n : AlarmName) (m : AlarmMode) (d wd h mi : Nat) (s : State), s.Idle → s.BusGood →
    legalOperands (.setalm n m d wd h mi) = true →
    let base := if n = .a1 then 0x08 else 0x0B
    let bcd (v : Nat) : Byte := BitVec.ofNat 8 (decimalToBcd v)
    ∃ t, Completes (.setalm n m d wd h mi) s t ∧ s.Answered t (okResponse 0 []) ∧
      t.regByte base = bcd mi ∧
      t.regByte (base + 1) = (if m = .minute then bcd h ||| 0x80 else bcd h) ∧
      t.regByte (base + 2) = (match m with
        | .minute => bcd d ||| 0x80
        | .hourMinute => bcd d ||| 0x80
        | .dateHourMinute => bcd d
        | .weekdayHourMinute => bcd wd ||| 0x40) ∧
      (∀ a, a < base ∨ base + 2 < a → t.regByte a = s.regByte a)

/-- 46_alarm_interrupt_enable.md R291: enabling alarm 1 and then alarm 2 leaves both control bits set
and no other bit, and no other register, altered. -/
def Obligations.EnablingBothAlarmsSetsBothBits : Prop :=
  ∀ s : State, s.Idle → s.BusGood →
    ∃ t u, Completes (.aie .a1 true) s t ∧ s.Answered t (okResponse 0 []) ∧
      Completes (.aie .a2 true) t u ∧ t.Answered u (okResponse 0 []) ∧
      u.regByte 0x0E = s.regByte 0x0E ||| 0x03 ∧
      ∀ a, a ≠ 0x0E → u.regByte a = s.regByte a

/-- 47_flag_clear_global_int.md R301, R305: on a good bus ACLR clears its flag, leaves the other
alarm's flag as it was and GINT sets or clears INTCN, each leaving every other register alone; on the
reference device the bits 7:2 of the status register too (on a real chip they are free, log 9). That a
real chip's flag written as 1 stays as it was is general knowledge by R301's own mark (log 31). -/
def Obligations.AclrAndGintChangeOneBit : Prop :=
  ∀ s : State, s.Idle → s.BusGood →
    (∀ n : AlarmName, ∃ t, Completes (.aclr n) s t ∧ s.Answered t (okResponse 0 []) ∧
      t.regByte 0x0F &&& 0x03 = s.regByte 0x0F &&& (match n with | .a1 => 0x02 | .a2 => 0x01) ∧
      (s.cfg.device = .reference →
        t.regByte 0x0F = s.regByte 0x0F &&& (match n with | .a1 => 0xFE | .a2 => 0xFD)) ∧
      ∀ a, a ≠ 0x0F → t.regByte a = s.regByte a) ∧
    (∀ en : Bool, ∃ t, Completes (.gint en) s t ∧ s.Answered t (okResponse 0 []) ∧
      t.regByte 0x0E = (if en then s.regByte 0x0E ||| 0x04 else s.regByte 0x0E &&& 0xFB) ∧
      ∀ a, a ≠ 0x0E → t.regByte a = s.regByte a)

/-! ## Other agents -/

/-- 20_memory.md R80: under `STATIC` there is no environment step; under `FREE` it may give any values
to the time, status and temperature registers, and changes nothing else. Which registers those are is
PRESUMED (log 17): R80 says of itself that "The split of registers into "chip may change" and "only
the bus changes" is [from general knowledge, not in source]". -/
def Obligations.ChipChangesItsOwnRegisters : Prop :=
  ∀ (s : State) (cells : List Host.Cell) (rest : List Move), s.agenda = .chip cells :: rest →
    (s.cfg.chipEnv = .static → step s = .next { s with agenda := rest }) ∧
    (s.cfg.chipEnv = .free → ∃ m, step s = .next { s with agenda := rest, mem := m } ∧
      (∀ a, 0x07 ≤ a ∧ a ≤ 0x0E ∨ a = 0x10 → Memory.get? m a = Memory.get? s.mem a) ∧
      (∀ (l : List Nat) (f : Nat → Byte), cells = l.map (fun a => (a, f a)) →
        ∀ a ∈ l, (a ≤ 0x06 ∨ a = 0x0F ∨ a = 0x11 ∨ a = 0x12) → Memory.get? m a = some (f a)))

/-- 20_memory.md R77: a transaction of another master touches the chip alone; the engine sees nothing
of it. -/
def Obligations.OtherMastersTouchOnlyTheChip : Prop :=
  ∀ (s : State) (x : Txn) (rest : List Move), s.agenda = .master x :: rest →
    ∃ m p n, step s = .next { s with agenda := rest, mem := m, ap := p, draws := n }

/-- 20_memory.md R78, 46_alarm_interrupt_enable.md R292: AIE is not atomic. A write to the control
register by another master between the read and the write of AIE is lost: the register ends as the
stale byte with AIE's bit changed, whatever the other master wrote. -/
def Obligations.ConcurrentUpdateIsLost : Prop :=
  ∀ (s : State) (n : AlarmName) (en : Bool) (c v : Byte), s.InFlight 2 [c] → s.BusGood →
    s.cmd = encode (.aie n en) → s.agenda = [.master (.write 0x0E [v])] →
    ∃ t u, step s = .next t ∧ t.regByte 0x0E = v ∧ step t = .next u ∧
      u.regByte 0x0E = setOrClear en (alarmMask n) c

/-- 70_reset_and_hazards.md R397: a register read can be split. If another master moves the pointer
between the address write and the byte read of RDREG, the byte comes from the other register. -/
def Obligations.SplitReadReadsAnotherRegister : Prop :=
  ∀ (s : State) (a b : Byte), s.InFlight 1 [] → s.BusGood → s.cmd = encode (.rdreg a) →
    b.toNat ≤ 0x12 → s.agenda = [.master (.write b [])] →
    ∃ t u, step s = .next t ∧ step t = .next u ∧ u.temps = [s.regByte b.toNat]

/-- 20_memory.md R67, R75, R77, 10_state.md R45: after a write transaction of any number of bytes that
stays in the map, whoever sent it, RDREG reads from each register it addressed the byte meant for it,
wherever a register keeps what is written to it, and from every other register of the map the byte
it held before. -/
def Obligations.WrittenBlockReadsBack : Prop :=
  ∀ (a : Byte) (data : List Byte) (s : State), s.Idle → s.BusGood →
    a.toNat + data.length ≤ 0x13 →
    (∀ (j : Nat) (b : Byte), data[j]? = some b → keepsWrites s (a.toNat + j) →
      ReadsAndAnswers (.rdreg (a + BitVec.ofNat 8 j)) (busWrite a data s)
        (okResponse b.toNat [])) ∧
    (∀ c : Byte, c.toNat ≤ 0x12 → (c.toNat < a.toNat ∨ a.toNat + data.length ≤ c.toNat) →
      ReadsAndAnswers (.rdreg c) (busWrite a data s) (okResponse (s.regByte c.toNat).toNat []))

/-- 20_memory.md R81: the reference device, transaction by transaction: the first byte of a write sets
the pointer, each data byte is stored at the pointer if that is in the map and moves the pointer up
modulo 256, and a read answers `reg[ap]`, above the map `0xFF`, and moves the pointer up. -/
def Obligations.ReferenceDeviceIsExact : Prop :=
  ∀ s : State, s.cfg.device = .reference →
    (∀ a, busWrite a [] s = { s with ap := a }) ∧
    (∀ a data d, busWrite a (data ++ [d]) s =
      let u := busWrite a data s
      if u.ap.toNat ≤ 0x12 then { u.setReg u.ap.toNat d with ap := u.ap + 1 }
      else { u with ap := u.ap + 1 }) ∧
    readByte s = (if s.ap.toNat ≤ 0x12 then s.regByte s.ap.toNat else 0xFF) ∧
    afterRead s = { s with ap := s.ap + 1 }

/-! ## Arithmetic -/

/-- 00_scope.md R7: the clamp and its two laws. -/
def Obligations.ClampLaws : Prop :=
  ∀ v lo hi : Nat, lo ≤ hi →
    (v < lo → clamp v lo hi = lo) ∧ (hi < v → clamp v lo hi = hi) ∧
    (lo ≤ v → v ≤ hi → clamp v lo hi = v) ∧
    clamp (clamp v lo hi) lo hi = clamp v lo hi ∧ lo ≤ clamp v lo hi ∧ clamp v lo hi ≤ hi

/-- 41_bcd_codec.md R164: the laws of the codec. -/
def Obligations.CodecLaws : Prop :=
  (∀ d, d ≤ 99 → bcdToDecimal (BitVec.ofNat 8 (decimalToBcd d)) = d) ∧
  (∀ d, d ≤ 159 → decimalToBcd d < 256 ∧ bcdToDecimal (BitVec.ofNat 8 (decimalToBcd d)) = d) ∧
  ((∀ b : Byte, b.toNat / 16 ≤ 9 → b.toNat % 16 ≤ 9 → decimalToBcd (bcdToDecimal b) = b.toNat) ∧
    decimalToBcd (bcdToDecimal 0x0A) = 0x10) ∧
  (∀ d, d ≤ 99 →
    ((decimalToBcd d).testBit 7 = true ↔ 80 ≤ d) ∧
    ((decimalToBcd d).testBit 6 = true ↔ 4 ≤ d / 10 ∧ d / 10 ≤ 7) ∧
    (d ≤ 59 → (decimalToBcd d).testBit 7 = false) ∧
    (d ≤ 31 → (decimalToBcd d).testBit 7 = false ∧ (decimalToBcd d).testBit 6 = false) ∧
    (d ≤ 23 → (decimalToBcd d).testBit 7 = false ∧ (decimalToBcd d).testBit 6 = false) ∧
    (d ≤ 7 → decimalToBcd d = d ∧ decimalToBcd d / 8 = 0))

/-- 45_alarm_config.md R273, R274: with legal operands the flag bits of the alarm bytes never meet a
digit: bit 7 of the minute byte and bit 6 of the hour byte are 0, bit 7 of the hour byte is set in
mode `Minute` alone, and bits 7 and 6 of the day/date byte select the mode. -/
def Obligations.AlarmFlagsNeverMeetDigits : Prop :=
  ∀ (m : AlarmMode) (d wd h mi : Nat), 1 ≤ d → d ≤ 31 → 1 ≤ wd → wd ≤ 7 → h ≤ 23 → mi ≤ 59 →
    (bcdByte mi)[7] = false ∧ (alarmHourByte m h)[6] = false ∧
    ((alarmHourByte m h)[7] = true ↔ m = .minute) ∧
    ((dayDateByte m d wd)[7] = true ↔ m = .minute ∨ m = .hourMinute) ∧
    ((dayDateByte m d wd)[6] = true ↔ m = .weekdayHourMinute) ∧
    bcdToDecimal (alarmHourByte m h &&& 0x3F) = h ∧
    bcdToDecimal (dayDateByte m d wd &&& 0x3F) = (if m = .weekdayHourMinute then wd else d)

/-- 44_timestamp.md R249: the result for arguments in range lies between the two ends of the century
and fits 32 bits unsigned with no wrap; it does not fit 31 bits exactly from 2038-01-19 03:14:08 on. -/
def Obligations.EpochSecondsFits32Bits : Prop :=
  (∀ Y M D h mi s : Nat, 2000 ≤ Y → Y ≤ 2099 → 1 ≤ M → M ≤ 12 → 1 ≤ D → D ≤ 31 → h ≤ 23 →
    mi ≤ 59 → s ≤ 59 →
    epochSeconds 2000 1 1 0 0 0 ≤ epochSeconds Y M D h mi s ∧
    epochSeconds Y M D h mi s ≤ epochSeconds 2099 12 31 23 59 59 ∧
    (BitVec.ofNat 32 (epochSeconds Y M D h mi s)).toNat = epochSeconds Y M D h mi s ∧
    (2 ^ 31 ≤ epochSeconds Y M D h mi s ↔
      2038 < Y ∨ Y = 2038 ∧ (1 < M ∨ 19 < D ∨
        D = 19 ∧ 3600 * 3 + 60 * 14 + 8 ≤ 3600 * h + 60 * mi + s))) ∧
  epochSeconds 2000 1 1 0 0 0 = 946684800 ∧ epochSeconds 2099 12 31 23 59 59 = 4102444799 ∧
  4102444799 < 2 ^ 32 ∧ epochSeconds 2038 1 19 3 14 8 = 2 ^ 31

/-- 44_timestamp.md R243, R250: the forward accumulation is the calendar's count of days: 365 a year, one
more for each leap year passed since 1970, and the days of the months passed in the year. -/
def Obligations.EpochSecondsCountsDays : Prop :=
  ∀ Y M D h mi s : Nat, 2000 ≤ Y → Y ≤ 2099 → 1 ≤ M → M ≤ 12 → 1 ≤ D →
    epochSeconds Y M D h mi s =
      86400 * (365 * (Y - 1970) + (Y - 1969) / 4 +
        [0, 31, 59, 90, 120, 151, 181, 212, 243, 273, 304, 334].getD (M - 1) 0 +
        (if 2 < M ∧ Y % 4 = 0 then 1 else 0) + (D - 1)) + 3600 * h + 60 * mi + s

/-- 44_timestamp.md R244: the calendar is not validated; a date past the end of its month counts on into
the next, and EPOCH accepts it. -/
def Obligations.DatesPastTheMonthCountOn : Prop :=
  (∀ Y M D h mi s : Nat, 1 ≤ M → M < 12 → daysInMonth Y M < D →
    epochSeconds Y M D h mi s = epochSeconds Y (M + 1) (D - daysInMonth Y M) h mi s) ∧
  (∀ Y D h mi s : Nat, 1970 ≤ Y → 31 < D →
    epochSeconds Y 12 D h mi s = epochSeconds (Y + 1) 1 (D - 31) h mi s) ∧
  epochSeconds 2024 2 31 0 0 0 = 1709337600 ∧ epochSeconds 2024 3 2 0 0 0 = 1709337600 ∧
  ∀ s : State, s.Idle → ∃ t, exec (.epoch 2024 2 31 0 0 0) s = .next t ∧ t.busy = true

/-! ## The invariant -/

/-- The machine's invariant is kept by every step, whichever agent moves: the register file stays
canonical, a command in flight is a legal command no further than its rule goes with one temporary
per register read (10_state.md R23, R26), only a command with a transaction left waits for one
(20_memory.md R64), `cix` counts the responses (10_state.md R24), and every transaction goes to
`0x68` (10_state.md R21). -/
def Obligations.EveryStepKeepsTheInvariant : Prop :=
  ∀ s t : State, s.Inv → step s = .next t → t.Inv

/-- The invariant holds after reset, and reset leaves the engine idle with `cix` 0 (10_state.md R24,
R50). -/
def Obligations.ResetMeetsTheInvariant : Prop :=
  State.reset.Inv ∧ State.reset.busy = false ∧ State.reset.cix = 0

/-- From a state that meets the invariant no step faults and none is refused: a run goes on for ever
(60_exceptions.md R340, R344; log 20). -/
def Obligations.NoStepStops : Prop :=
  ∀ s : State, s.Inv → ∃ t, step s = .next t

/-! ## Power-up, numerals, and the flags of a real chip -/

/-- 10_state.md R52, R53: a power-up of the chip, between any two other steps, leaves the engine, the
host and everything else as it is, and all 19 registers and the pointer may hold anything afterwards.
That the bytes come with the move is the model's form of "unspecified" (log 30). -/
def Obligations.PowerUpTouchesOnlyTheChip : Prop :=
  ∀ (s : State) (regs : Vector Byte 19) (p : Byte) (rest : List Move),
    s.agenda = .powerUp regs p :: rest →
    ∃ m, step s = .next { s with agenda := rest, mem := m, ap := p } ∧
      ∀ (a : Nat) (h : a < 19), Memory.get? m a = some regs[a]

/-- 00_scope.md R9: `dec(n)` is the decimal numeral of `n`: one digit below 10, and otherwise the
numeral of `n div 10` and the last digit; it has no leading zero, but for `dec(0) = "0"`. Spelled out
for the numbers DATESTR prints. -/
def Obligations.NumeralsHaveNoLeadingZero : Prop :=
  let code (d : Nat) : Byte := BitVec.ofNat 8 (0x30 + d)
  (∀ n, n < 10 → dec n = [code n]) ∧
  (∀ n, 10 ≤ n → dec n = dec (n / 10) ++ [code (n % 10)]) ∧
  (∀ n, 0 < n → (dec n).head? ≠ some (code 0)) ∧
  (∀ n, 10 ≤ n → n ≤ 99 → dec n = [code (n / 10), code (n % 10)]) ∧
  (∀ n, 2000 ≤ n → n ≤ 2099 →
    dec n = [code 2, code 0, code ((n - 2000) / 10), code ((n - 2000) % 10)])

/-- 47_flag_clear_global_int.md R301, 70_reset_and_hazards.md R394: what a completed write inside the map
does to the alarm flags of a real chip, whatever they were when it arrives. A flag stays set only if
it is set and written as 1: ACLR clears its own flag and clears the other alarm's too if it read that
as 0 (the event is lost); WRREG to the status register and another master's block that covers it
raise none; a block that does not cover it leaves it alone, as do the other commands
(`OnlyAddressedRegistersChange`). R301 marks this as general knowledge: PRESUMED (log 31). It says
nothing of a write above `0x12` (log 8) or of one that fails (log 10): those may leave any flag. -/
def Obligations.CompletedWriteInTheMapRaisesNoFlag : Prop :=
  ∀ s : State, s.cfg.device = .real →
    (∀ (c : Byte) (n : AlarmName), s.InFlight 2 [c] → s.BusGood →
      ∃ t, exec (.aclr n) s = .next t ∧ t.regByte 0x0F &&& 0x03 =
        s.regByte 0x0F &&& c &&& (match n with | .a1 => 0x02 | .a2 => 0x01)) ∧
    (∀ v : Byte, s.InFlight 0 [] → s.BusGood →
      ∃ t, exec (.wrreg 0x0F v) s = .next t ∧
        t.regByte 0x0F &&& 0x03 = s.regByte 0x0F &&& v &&& 0x03) ∧
    (∀ (a : Byte) (data : List Byte) (rest : List Move),
      s.agenda = .master (.write a data) :: rest → a.toNat + data.length ≤ 0x13 →
      ∃ t, step s = .next t ∧
        (∀ j b, data[j]? = some b → a.toNat + j = 0x0F →
          t.regByte 0x0F &&& 0x03 = s.regByte 0x0F &&& b &&& 0x03) ∧
        (0x0F < a.toNat ∨ a.toNat + data.length ≤ 0x0F → t.regByte 0x0F = s.regByte 0x0F))
end

