-- ==== Sys2Proof/Laws/Memory.lean ====
section
/-! SUPPORT. The laws of the register file: read after write, and the canonical form is kept. -/

namespace Sys2Proof.Machine

@[simp] theorem get?_set_same (m : Memory) (a : Nat) (b : Byte) :
    Memory.get? (Memory.set m a b) a = some b := by
  induction m with
  | nil => simp [Memory.set, Memory.get?]
  | cons c m ih =>
    obtain ⟨k, v⟩ := c
    simp only [Memory.set]
    split_ifs with h1 h2
    · simp [Memory.get?]
    · simp [Memory.get?]
    · simp [Memory.get?, Ne.symm h2, ih]

theorem get?_set_other (m : Memory) {a c : Nat} (b : Byte) (h : c ≠ a) :
    Memory.get? (Memory.set m a b) c = Memory.get? m c := by
  induction m with
  | nil => simp [Memory.set, Memory.get?, Ne.symm h]
  | cons x m ih =>
    obtain ⟨k, v⟩ := x
    simp only [Memory.set]
    split_ifs with h1 h2
    · simp [Memory.get?, Ne.symm h]
    · subst h2; simp [Memory.get?, Ne.symm h]
    · simp [Memory.get?, ih]

theorem risesFrom_set (m : Memory) {lo a : Nat} (b : Byte) (hm : Memory.risesFrom lo m = true)
    (ha : lo ≤ a) : Memory.risesFrom lo (Memory.set m a b) = true := by
  induction m generalizing lo with
  | nil => simp [Memory.set, Memory.risesFrom, ha]
  | cons x m ih =>
    obtain ⟨k, v⟩ := x
    simp only [Memory.risesFrom, Bool.and_eq_true, decide_eq_true_eq] at hm
    simp only [Memory.set]
    split_ifs with h1 h2
    · simp [Memory.risesFrom, ha, hm.2]; omega
    · subst h2; simp [Memory.risesFrom, hm.1, hm.2]
    · simp only [Memory.risesFrom, Bool.and_eq_true, decide_eq_true_eq]
      exact ⟨hm.1, ih hm.2 (by omega)⟩

theorem all_set (m : Memory) (p : Host.Cell → Bool) {a : Nat} {b : Byte} (hm : m.all p = true)
    (h : p (a, b) = true) : (Memory.set m a b).all p = true := by
  induction m with
  | nil => simp [Memory.set, h]
  | cons x m ih =>
    obtain ⟨k, v⟩ := x
    simp only [List.all_cons, Bool.and_eq_true] at hm
    simp only [Memory.set]
    split_ifs with h1 h2 <;> simp_all

/-- A write to a register of the map keeps the canonical form. -/
theorem wf_set {m : Memory} {a : Nat} (b : Byte) (hm : Memory.wf m = true) (ha : a ≤ regTop) :
    Memory.wf (Memory.set m a b) = true := by
  simp only [Memory.wf, Bool.and_eq_true] at hm ⊢
  exact ⟨risesFrom_set m b hm.1 (Nat.zero_le a), all_set m _ hm.2 (by simpa using ha)⟩

theorem reset_mem_wf : Memory.wf State.reset.mem = true := rfl

theorem wf_havoc (d : Nat) {m : Memory} (hm : Memory.wf m = true) :
    Memory.wf (havoc d m) = true := by
  have main : ∀ (l : List Nat) (m : Memory), (∀ a ∈ l, a ≤ regTop) → Memory.wf m = true →
      Memory.wf (l.foldl (fun m a => Memory.set m a (Config.freeByte (d + a))) m) = true := by
    intro l
    induction l with
    | nil => intro m _ h; exact h
    | cons a l ih =>
      intro m hl h
      exact ih _ (fun x hx => hl x (List.mem_cons_of_mem _ hx)) (wf_set _ h (hl a List.mem_cons_self))
  exact main _ m (fun a ha => by simp [List.mem_range] at ha; omega) hm

/-- An environment step of the chip keeps the canonical form. -/
theorem wf_chipCells (cells : List Host.Cell) {m : Memory} (hm : Memory.wf m = true) :
    Memory.wf (cells.foldl (fun m c => if chipMayChange c.1 then Memory.set m c.1 c.2 else m) m)
      = true := by
  induction cells generalizing m with
  | nil => exact hm
  | cons c cs ih =>
    simp only [List.foldl_cons]
    apply ih
    split_ifs with h
    · refine wf_set _ hm ?_
      simp [chipMayChange] at h
      simp only [regTop]; omega
    · exact hm

/-! A register file listed whole. -/

theorem risesFrom_listedFrom {lo a : Nat} (h : lo ≤ a) (l : List Byte) :
    Memory.risesFrom lo (Memory.listedFrom a l) = true := by
  induction l generalizing lo a with
  | nil => rfl
  | cons b l ih => simpa [Memory.listedFrom, Memory.risesFrom, h] using ih (Nat.le_refl (a + 1))

theorem wf_listedFrom {a : Nat} {l : List Byte} (h : a + l.length ≤ regTop + 1) :
    Memory.wf (Memory.listedFrom a l) = true := by
  simp only [Memory.wf, risesFrom_listedFrom (Nat.zero_le a), Bool.true_and]
  induction l generalizing a with
  | nil => rfl
  | cons b l ih =>
    simp only [List.length_cons] at h
    simp [Memory.listedFrom, ih (a := a + 1) (by omega)]
    omega

/-- The entry at each place of the list. -/
theorem get?_listedFrom (a k : Nat) (l : List Byte) :
    Memory.get? (Memory.listedFrom a l) (a + k) = l[k]? := by
  induction l generalizing a k with
  | nil => rfl
  | cons b l ih =>
    cases k with
    | zero => simp [Memory.listedFrom, Memory.get?]
    | succ k =>
      have h := ih (a + 1) k
      rw [show a + 1 + k = a + (k + 1) by omega] at h
      simp [Memory.listedFrom, Memory.get?, h]

@[simp] theorem regByte_setReg_same (s : State) (a : Nat) (b : Byte) :
    (s.setReg a b).regByte a = b := by simp [State.regByte, State.setReg]

theorem regByte_setReg_other (s : State) {a c : Nat} (b : Byte) (h : c ≠ a) :
    (s.setReg a b).regByte c = s.regByte c := by
  simp [State.regByte, State.setReg, get?_set_other _ _ h]

theorem regByte_congr {s t : State} (h : t.mem = s.mem) (a : Nat) : t.regByte a = s.regByte a := by
  simp [State.regByte, h]

end Sys2Proof.Machine
end

