-- ==== Sys2Proof/Laws/State.lean ====
section
/-! SUPPORT. What each named update of State leaves in each field. -/

namespace Sys2Proof.Machine

@[simp] theorem State.setReg_busy (s : State) (a : Nat) (b : Byte) : (s.setReg a b).busy = s.busy := rfl
@[simp] theorem State.setReg_cmd (s : State) (a : Nat) (b : Byte) : (s.setReg a b).cmd = s.cmd := rfl
@[simp] theorem State.setReg_stepNo (s : State) (a : Nat) (b : Byte) : (s.setReg a b).stepNo = s.stepNo := rfl
@[simp] theorem State.setReg_temps (s : State) (a : Nat) (b : Byte) : (s.setReg a b).temps = s.temps := rfl
@[simp] theorem State.setReg_transferring (s : State) (a : Nat) (b : Byte) : (s.setReg a b).transferring = s.transferring := rfl
@[simp] theorem State.setReg_cix (s : State) (a : Nat) (b : Byte) : (s.setReg a b).cix = s.cix := rfl
@[simp] theorem State.setReg_commands (s : State) (a : Nat) (b : Byte) : (s.setReg a b).commands = s.commands := rfl
@[simp] theorem State.setReg_responses (s : State) (a : Nat) (b : Byte) : (s.setReg a b).responses = s.responses := rfl
@[simp] theorem State.setReg_mem (s : State) (a : Nat) (b : Byte) : (s.setReg a b).mem = Memory.set s.mem a b := rfl
@[simp] theorem State.setReg_ap (s : State) (a : Nat) (b : Byte) : (s.setReg a b).ap = s.ap := rfl
@[simp] theorem State.setReg_cfg (s : State) (a : Nat) (b : Byte) : (s.setReg a b).cfg = s.cfg := rfl
@[simp] theorem State.setReg_answers (s : State) (a : Nat) (b : Byte) : (s.setReg a b).answers = s.answers := rfl
@[simp] theorem State.setReg_agenda (s : State) (a : Nat) (b : Byte) : (s.setReg a b).agenda = s.agenda := rfl
@[simp] theorem State.setReg_trace (s : State) (a : Nat) (b : Byte) : (s.setReg a b).trace = s.trace := rfl
@[simp] theorem State.setReg_draws (s : State) (a : Nat) (b : Byte) : (s.setReg a b).draws = s.draws := rfl

@[simp] theorem State.spend_busy (n : Nat) (s : State) : (State.spend n s).busy = s.busy := rfl
@[simp] theorem State.spend_cmd (n : Nat) (s : State) : (State.spend n s).cmd = s.cmd := rfl
@[simp] theorem State.spend_stepNo (n : Nat) (s : State) : (State.spend n s).stepNo = s.stepNo := rfl
@[simp] theorem State.spend_temps (n : Nat) (s : State) : (State.spend n s).temps = s.temps := rfl
@[simp] theorem State.spend_transferring (n : Nat) (s : State) : (State.spend n s).transferring = s.transferring := rfl
@[simp] theorem State.spend_cix (n : Nat) (s : State) : (State.spend n s).cix = s.cix := rfl
@[simp] theorem State.spend_commands (n : Nat) (s : State) : (State.spend n s).commands = s.commands := rfl
@[simp] theorem State.spend_responses (n : Nat) (s : State) : (State.spend n s).responses = s.responses := rfl
@[simp] theorem State.spend_mem (n : Nat) (s : State) : (State.spend n s).mem = s.mem := rfl
@[simp] theorem State.spend_ap (n : Nat) (s : State) : (State.spend n s).ap = s.ap := rfl
@[simp] theorem State.spend_cfg (n : Nat) (s : State) : (State.spend n s).cfg = s.cfg := rfl
@[simp] theorem State.spend_answers (n : Nat) (s : State) : (State.spend n s).answers = s.answers := rfl
@[simp] theorem State.spend_agenda (n : Nat) (s : State) : (State.spend n s).agenda = s.agenda := rfl
@[simp] theorem State.spend_trace (n : Nat) (s : State) : (State.spend n s).trace = s.trace := rfl
@[simp] theorem State.spend_draws (n : Nat) (s : State) : (State.spend n s).draws = s.draws + n := rfl

@[simp] theorem deliver_busy (r : Response) (s : State) : (deliver r s).busy = false := rfl
@[simp] theorem deliver_cmd (r : Response) (s : State) : (deliver r s).cmd = s.cmd := rfl
@[simp] theorem deliver_stepNo (r : Response) (s : State) : (deliver r s).stepNo = s.stepNo := rfl
@[simp] theorem deliver_temps (r : Response) (s : State) : (deliver r s).temps = [] := rfl
@[simp] theorem deliver_transferring (r : Response) (s : State) : (deliver r s).transferring = false := rfl
@[simp] theorem deliver_cix (r : Response) (s : State) : (deliver r s).cix = s.cix + 1 := rfl
@[simp] theorem deliver_commands (r : Response) (s : State) : (deliver r s).commands = s.commands := rfl
@[simp] theorem deliver_responses (r : Response) (s : State) : (deliver r s).responses = s.responses ++ [r] := rfl
@[simp] theorem deliver_mem (r : Response) (s : State) : (deliver r s).mem = s.mem := rfl
@[simp] theorem deliver_ap (r : Response) (s : State) : (deliver r s).ap = s.ap := rfl
@[simp] theorem deliver_cfg (r : Response) (s : State) : (deliver r s).cfg = s.cfg := rfl
@[simp] theorem deliver_answers (r : Response) (s : State) : (deliver r s).answers = s.answers := rfl
@[simp] theorem deliver_agenda (r : Response) (s : State) : (deliver r s).agenda = s.agenda := rfl
@[simp] theorem deliver_trace (r : Response) (s : State) : (deliver r s).trace = s.trace := rfl
@[simp] theorem deliver_draws (r : Response) (s : State) : (deliver r s).draws = s.draws := rfl

@[simp] theorem respond_busy (v : Nat) (x : Text) (s : State) : (respond v x s).busy = false := rfl
@[simp] theorem respond_cmd (v : Nat) (x : Text) (s : State) : (respond v x s).cmd = s.cmd := rfl
@[simp] theorem respond_stepNo (v : Nat) (x : Text) (s : State) : (respond v x s).stepNo = s.stepNo := rfl
@[simp] theorem respond_temps (v : Nat) (x : Text) (s : State) : (respond v x s).temps = [] := rfl
@[simp] theorem respond_transferring (v : Nat) (x : Text) (s : State) : (respond v x s).transferring = false := rfl
@[simp] theorem respond_cix (v : Nat) (x : Text) (s : State) : (respond v x s).cix = s.cix + 1 := rfl
@[simp] theorem respond_commands (v : Nat) (x : Text) (s : State) : (respond v x s).commands = s.commands := rfl
@[simp] theorem respond_responses (v : Nat) (x : Text) (s : State) : (respond v x s).responses = s.responses ++ [⟨.ok, 0, BitVec.ofNat 32 v, x⟩] := rfl
@[simp] theorem respond_mem (v : Nat) (x : Text) (s : State) : (respond v x s).mem = s.mem := rfl
@[simp] theorem respond_ap (v : Nat) (x : Text) (s : State) : (respond v x s).ap = s.ap := rfl
@[simp] theorem respond_cfg (v : Nat) (x : Text) (s : State) : (respond v x s).cfg = s.cfg := rfl
@[simp] theorem respond_answers (v : Nat) (x : Text) (s : State) : (respond v x s).answers = s.answers := rfl
@[simp] theorem respond_agenda (v : Nat) (x : Text) (s : State) : (respond v x s).agenda = s.agenda := rfl
@[simp] theorem respond_trace (v : Nat) (x : Text) (s : State) : (respond v x s).trace = s.trace := rfl
@[simp] theorem respond_draws (v : Nat) (x : Text) (s : State) : (respond v x s).draws = s.draws := rfl

@[simp] theorem raise_busy (f : Status) (k : Nat) (s : State) : (raise f k s).busy = false := rfl
@[simp] theorem raise_cmd (f : Status) (k : Nat) (s : State) : (raise f k s).cmd = s.cmd := rfl
@[simp] theorem raise_stepNo (f : Status) (k : Nat) (s : State) : (raise f k s).stepNo = s.stepNo := rfl
@[simp] theorem raise_temps (f : Status) (k : Nat) (s : State) : (raise f k s).temps = [] := rfl
@[simp] theorem raise_transferring (f : Status) (k : Nat) (s : State) : (raise f k s).transferring = false := rfl
@[simp] theorem raise_cix (f : Status) (k : Nat) (s : State) : (raise f k s).cix = s.cix + 1 := rfl
@[simp] theorem raise_commands (f : Status) (k : Nat) (s : State) : (raise f k s).commands = s.commands := rfl
@[simp] theorem raise_responses (f : Status) (k : Nat) (s : State) : (raise f k s).responses = s.responses ++ [⟨f, BitVec.ofNat 8 k, 0, []⟩] := rfl
@[simp] theorem raise_mem (f : Status) (k : Nat) (s : State) : (raise f k s).mem = s.mem := rfl
@[simp] theorem raise_ap (f : Status) (k : Nat) (s : State) : (raise f k s).ap = s.ap := rfl
@[simp] theorem raise_cfg (f : Status) (k : Nat) (s : State) : (raise f k s).cfg = s.cfg := rfl
@[simp] theorem raise_answers (f : Status) (k : Nat) (s : State) : (raise f k s).answers = s.answers := rfl
@[simp] theorem raise_agenda (f : Status) (k : Nat) (s : State) : (raise f k s).agenda = s.agenda := rfl
@[simp] theorem raise_trace (f : Status) (k : Nat) (s : State) : (raise f k s).trace = s.trace := rfl
@[simp] theorem raise_draws (f : Status) (k : Nat) (s : State) : (raise f k s).draws = s.draws := rfl

@[simp] theorem logTxn_busy (t : Txn) (r : TxnResult) (s : State) : (logTxn t r s).busy = s.busy := rfl
@[simp] theorem logTxn_cmd (t : Txn) (r : TxnResult) (s : State) : (logTxn t r s).cmd = s.cmd := rfl
@[simp] theorem logTxn_stepNo (t : Txn) (r : TxnResult) (s : State) : (logTxn t r s).stepNo = s.stepNo := rfl
@[simp] theorem logTxn_temps (t : Txn) (r : TxnResult) (s : State) : (logTxn t r s).temps = s.temps := rfl
@[simp] theorem logTxn_transferring (t : Txn) (r : TxnResult) (s : State) : (logTxn t r s).transferring = s.transferring := rfl
@[simp] theorem logTxn_cix (t : Txn) (r : TxnResult) (s : State) : (logTxn t r s).cix = s.cix := rfl
@[simp] theorem logTxn_commands (t : Txn) (r : TxnResult) (s : State) : (logTxn t r s).commands = s.commands := rfl
@[simp] theorem logTxn_responses (t : Txn) (r : TxnResult) (s : State) : (logTxn t r s).responses = s.responses := rfl
@[simp] theorem logTxn_mem (t : Txn) (r : TxnResult) (s : State) : (logTxn t r s).mem = s.mem := rfl
@[simp] theorem logTxn_ap (t : Txn) (r : TxnResult) (s : State) : (logTxn t r s).ap = s.ap := rfl
@[simp] theorem logTxn_cfg (t : Txn) (r : TxnResult) (s : State) : (logTxn t r s).cfg = s.cfg := rfl
@[simp] theorem logTxn_answers (t : Txn) (r : TxnResult) (s : State) : (logTxn t r s).answers = s.answers := rfl
@[simp] theorem logTxn_agenda (t : Txn) (r : TxnResult) (s : State) : (logTxn t r s).agenda = s.agenda := rfl
@[simp] theorem logTxn_trace (t : Txn) (r : TxnResult) (s : State) : (logTxn t r s).trace = s.trace ++ [⟨devAddr, t, r⟩] := rfl
@[simp] theorem logTxn_draws (t : Txn) (r : TxnResult) (s : State) : (logTxn t r s).draws = s.draws := rfl

@[simp] theorem State.takeAnswer_busy (s : State) : (s.takeAnswer).busy = s.busy := rfl
@[simp] theorem State.takeAnswer_cmd (s : State) : (s.takeAnswer).cmd = s.cmd := rfl
@[simp] theorem State.takeAnswer_stepNo (s : State) : (s.takeAnswer).stepNo = s.stepNo := rfl
@[simp] theorem State.takeAnswer_temps (s : State) : (s.takeAnswer).temps = s.temps := rfl
@[simp] theorem State.takeAnswer_transferring (s : State) : (s.takeAnswer).transferring = s.transferring := rfl
@[simp] theorem State.takeAnswer_cix (s : State) : (s.takeAnswer).cix = s.cix := rfl
@[simp] theorem State.takeAnswer_commands (s : State) : (s.takeAnswer).commands = s.commands := rfl
@[simp] theorem State.takeAnswer_responses (s : State) : (s.takeAnswer).responses = s.responses := rfl
@[simp] theorem State.takeAnswer_mem (s : State) : (s.takeAnswer).mem = s.mem := rfl
@[simp] theorem State.takeAnswer_ap (s : State) : (s.takeAnswer).ap = s.ap := rfl
@[simp] theorem State.takeAnswer_cfg (s : State) : (s.takeAnswer).cfg = s.cfg := rfl
@[simp] theorem State.takeAnswer_answers (s : State) : (s.takeAnswer).answers = s.answers.tail := rfl
@[simp] theorem State.takeAnswer_agenda (s : State) : (s.takeAnswer).agenda = s.agenda := rfl
@[simp] theorem State.takeAnswer_trace (s : State) : (s.takeAnswer).trace = s.trace := rfl
@[simp] theorem State.takeAnswer_draws (s : State) : (s.takeAnswer).draws = s.draws := rfl

@[simp] theorem accept_busy (i : Instr) (s : State) : (accept i s).busy = true := rfl
@[simp] theorem accept_cmd (i : Instr) (s : State) : (accept i s).cmd = encode i := rfl
@[simp] theorem accept_stepNo (i : Instr) (s : State) : (accept i s).stepNo = 0 := rfl
@[simp] theorem accept_temps (i : Instr) (s : State) : (accept i s).temps = [] := rfl
@[simp] theorem accept_transferring (i : Instr) (s : State) : (accept i s).transferring = false := rfl
@[simp] theorem accept_cix (i : Instr) (s : State) : (accept i s).cix = s.cix := rfl
@[simp] theorem accept_commands (i : Instr) (s : State) : (accept i s).commands = s.commands := rfl
@[simp] theorem accept_responses (i : Instr) (s : State) : (accept i s).responses = s.responses := rfl
@[simp] theorem accept_mem (i : Instr) (s : State) : (accept i s).mem = s.mem := rfl
@[simp] theorem accept_ap (i : Instr) (s : State) : (accept i s).ap = s.ap := rfl
@[simp] theorem accept_cfg (i : Instr) (s : State) : (accept i s).cfg = s.cfg := rfl
@[simp] theorem accept_answers (i : Instr) (s : State) : (accept i s).answers = s.answers := rfl
@[simp] theorem accept_agenda (i : Instr) (s : State) : (accept i s).agenda = s.agenda := rfl
@[simp] theorem accept_trace (i : Instr) (s : State) : (accept i s).trace = s.trace := rfl
@[simp] theorem accept_draws (i : Instr) (s : State) : (accept i s).draws = s.draws := rfl

@[simp] theorem chipPowerUp_busy (r : Vector Byte 19) (p : Byte) (s : State) : (chipPowerUp r p s).busy = s.busy := rfl
@[simp] theorem chipPowerUp_cmd (r : Vector Byte 19) (p : Byte) (s : State) : (chipPowerUp r p s).cmd = s.cmd := rfl
@[simp] theorem chipPowerUp_stepNo (r : Vector Byte 19) (p : Byte) (s : State) : (chipPowerUp r p s).stepNo = s.stepNo := rfl
@[simp] theorem chipPowerUp_temps (r : Vector Byte 19) (p : Byte) (s : State) : (chipPowerUp r p s).temps = s.temps := rfl
@[simp] theorem chipPowerUp_transferring (r : Vector Byte 19) (p : Byte) (s : State) : (chipPowerUp r p s).transferring = s.transferring := rfl
@[simp] theorem chipPowerUp_cix (r : Vector Byte 19) (p : Byte) (s : State) : (chipPowerUp r p s).cix = s.cix := rfl
@[simp] theorem chipPowerUp_commands (r : Vector Byte 19) (p : Byte) (s : State) : (chipPowerUp r p s).commands = s.commands := rfl
@[simp] theorem chipPowerUp_responses (r : Vector Byte 19) (p : Byte) (s : State) : (chipPowerUp r p s).responses = s.responses := rfl
@[simp] theorem chipPowerUp_mem (r : Vector Byte 19) (p : Byte) (s : State) : (chipPowerUp r p s).mem = Memory.listedFrom 0 r.toList := rfl
@[simp] theorem chipPowerUp_ap (r : Vector Byte 19) (p : Byte) (s : State) : (chipPowerUp r p s).ap = p := rfl
@[simp] theorem chipPowerUp_cfg (r : Vector Byte 19) (p : Byte) (s : State) : (chipPowerUp r p s).cfg = s.cfg := rfl
@[simp] theorem chipPowerUp_answers (r : Vector Byte 19) (p : Byte) (s : State) : (chipPowerUp r p s).answers = s.answers := rfl
@[simp] theorem chipPowerUp_agenda (r : Vector Byte 19) (p : Byte) (s : State) : (chipPowerUp r p s).agenda = s.agenda := rfl
@[simp] theorem chipPowerUp_trace (r : Vector Byte 19) (p : Byte) (s : State) : (chipPowerUp r p s).trace = s.trace := rfl
@[simp] theorem chipPowerUp_draws (r : Vector Byte 19) (p : Byte) (s : State) : (chipPowerUp r p s).draws = s.draws := rfl

@[simp] theorem engineReset_busy (s : State) : (engineReset s).busy = false := rfl
@[simp] theorem engineReset_cmd (s : State) : (engineReset s).cmd = s.cmd := rfl
@[simp] theorem engineReset_stepNo (s : State) : (engineReset s).stepNo = s.stepNo := rfl
@[simp] theorem engineReset_temps (s : State) : (engineReset s).temps = s.temps := rfl
@[simp] theorem engineReset_transferring (s : State) : (engineReset s).transferring = false := rfl
@[simp] theorem engineReset_cix (s : State) : (engineReset s).cix = s.cix := rfl
@[simp] theorem engineReset_commands (s : State) : (engineReset s).commands = s.commands := rfl
@[simp] theorem engineReset_responses (s : State) : (engineReset s).responses = s.responses := rfl
@[simp] theorem engineReset_mem (s : State) : (engineReset s).mem = s.mem := rfl
@[simp] theorem engineReset_ap (s : State) : (engineReset s).ap = s.ap := rfl
@[simp] theorem engineReset_cfg (s : State) : (engineReset s).cfg = s.cfg := rfl
@[simp] theorem engineReset_answers (s : State) : (engineReset s).answers = s.answers := rfl
@[simp] theorem engineReset_agenda (s : State) : (engineReset s).agenda = s.agenda := rfl
@[simp] theorem engineReset_trace (s : State) : (engineReset s).trace = s.trace := rfl
@[simp] theorem engineReset_draws (s : State) : (engineReset s).draws = s.draws := rfl

@[simp] theorem State.present_busy (s : State) (w : Word64) : (s.present w).busy = false := rfl
@[simp] theorem State.present_cmd (s : State) (w : Word64) : (s.present w).cmd = s.cmd := rfl
@[simp] theorem State.present_stepNo (s : State) (w : Word64) : (s.present w).stepNo = s.stepNo := rfl
@[simp] theorem State.present_temps (s : State) (w : Word64) : (s.present w).temps = s.temps := rfl
@[simp] theorem State.present_transferring (s : State) (w : Word64) : (s.present w).transferring = false := rfl
@[simp] theorem State.present_cix (s : State) (w : Word64) : (s.present w).cix = s.cix := rfl
@[simp] theorem State.present_commands (s : State) (w : Word64) : (s.present w).commands = placeAt w s.commands s.cix := rfl
@[simp] theorem State.present_responses (s : State) (w : Word64) : (s.present w).responses = s.responses := rfl
@[simp] theorem State.present_mem (s : State) (w : Word64) : (s.present w).mem = s.mem := rfl
@[simp] theorem State.present_ap (s : State) (w : Word64) : (s.present w).ap = s.ap := rfl
@[simp] theorem State.present_cfg (s : State) (w : Word64) : (s.present w).cfg = s.cfg := rfl
@[simp] theorem State.present_answers (s : State) (w : Word64) : (s.present w).answers = s.answers := rfl
@[simp] theorem State.present_agenda (s : State) (w : Word64) : (s.present w).agenda = [] := rfl
@[simp] theorem State.present_trace (s : State) (w : Word64) : (s.present w).trace = s.trace := rfl
@[simp] theorem State.present_draws (s : State) (w : Word64) : (s.present w).draws = s.draws := rfl

end Sys2Proof.Machine
end

