-- ==== Sys2Proof/Laws/Chip.lean ====
section
/-! SUPPORT. What the bus operations do: they change nothing but the chip, they keep the register file canonical, and which registers they change. -/

namespace Sys2Proof.Machine

/-- `t` differs from `s` at most in the chip's registers, its pointer and the free values used. -/
def ChipOnly (s t : State) : Prop := ∃ m p n, t = { s with mem := m, ap := p, draws := n }

theorem ChipOnly.refl (s : State) : ChipOnly s s := ⟨s.mem, s.ap, s.draws, rfl⟩

theorem ChipOnly.trans {s t u : State} (h : ChipOnly s t) (k : ChipOnly t u) : ChipOnly s u := by
  obtain ⟨m, p, n, rfl⟩ := h
  obtain ⟨m', p', n', rfl⟩ := k
  exact ⟨m', p', n', rfl⟩

theorem chipOnly_strayWrite (s : State) : ChipOnly s (strayWrite s) := by
  unfold strayWrite
  cases s.cfg.device
  · exact ChipOnly.refl s
  · exact ⟨_, s.ap, _, rfl⟩

theorem chipOnly_storeInMap (a v : Byte) (s : State) : ChipOnly s (storeInMap a v s) := by
  unfold storeInMap
  cases s.cfg.device
  · exact ⟨_, s.ap, s.draws, rfl⟩
  · exact ⟨_, s.ap, _, rfl⟩

theorem chipOnly_bumpPointer (s : State) : ChipOnly s (bumpPointer s) := by
  unfold bumpPointer
  cases s.cfg.device
  · exact ⟨s.mem, _, s.draws, rfl⟩
  · dsimp only
    split_ifs
    · exact ⟨s.mem, _, s.draws, rfl⟩
    · exact ⟨s.mem, _, _, rfl⟩

theorem chipOnly_storeByte (s : State) (v : Byte) : ChipOnly s (storeByte s v) := by
  unfold storeByte
  refine ChipOnly.trans ?_ (chipOnly_bumpPointer _)
  split_ifs
  · exact chipOnly_storeInMap _ _ s
  · exact chipOnly_strayWrite s

theorem chipOnly_busWrite (a : Byte) (data : List Byte) (s : State) :
    ChipOnly s (busWrite a data s) := by
  have main : ∀ (data : List Byte) (s : State), ChipOnly s (data.foldl storeByte s) := by
    intro data
    induction data with
    | nil => exact ChipOnly.refl
    | cons v vs ih => exact fun s => (chipOnly_storeByte s v).trans (ih _)
  exact ChipOnly.trans ⟨s.mem, a, s.draws, rfl⟩ (main data _)

theorem chipOnly_afterRead (s : State) : ChipOnly s (afterRead s) := by
  unfold afterRead
  cases s.cfg.device
  · exact ⟨s.mem, _, s.draws, rfl⟩
  · exact ⟨s.mem, _, _, rfl⟩

theorem chipOnly_leaveByte (a : Byte) (left : Option Byte) (s : State) :
    ChipOnly s (leaveByte a left s) := by
  unfold leaveByte
  split_ifs
  · cases left
    · exact ChipOnly.refl s
    · exact ⟨_, s.ap, s.draws, rfl⟩
  · exact chipOnly_strayWrite s

theorem chipOnly_leaveBytes (a : Byte) (data left : List Byte) (s : State) :
    ChipOnly s (leaveBytes a data left s) := by
  induction data generalizing a left s with
  | nil => exact ChipOnly.refl s
  | cons v vs ih => exact (chipOnly_leaveByte a _ s).trans (ih _ _ _)

theorem chipOnly_disturb (t : Txn) (left : List Byte) (s : State) :
    ChipOnly s (disturb t left s) := by
  cases t with
  | write a data => exact ChipOnly.trans ⟨s.mem, _, _, rfl⟩ (chipOnly_leaveBytes _ _ _ _)
  | read => exact ⟨s.mem, _, _, rfl⟩

theorem chipOnly_masterStep (t : Txn) (s : State) : ChipOnly s (masterStep t s) := by
  cases t with
  | write a data => exact chipOnly_busWrite a data s
  | read => exact chipOnly_afterRead s

theorem chipOnly_chipStep (cells : List Host.Cell) (s : State) : ChipOnly s (chipStep cells s) := by
  unfold chipStep
  cases s.cfg.chipEnv
  · exact ⟨_, s.ap, s.draws, rfl⟩
  · exact ChipOnly.refl s

theorem chipOnly_chipPowerUp (regs : Vector Byte 19) (p : Byte) (s : State) :
    ChipOnly s (chipPowerUp regs p s) := ⟨_, p, s.draws, rfl⟩

/-! The fields a bus operation leaves alone. -/

section Fields
variable {s t : State} (h : ChipOnly s t)
include h
theorem ChipOnly.busy : t.busy = s.busy := by obtain ⟨_, _, _, rfl⟩ := h; rfl
theorem ChipOnly.cmd : t.cmd = s.cmd := by obtain ⟨_, _, _, rfl⟩ := h; rfl
theorem ChipOnly.stepNo : t.stepNo = s.stepNo := by obtain ⟨_, _, _, rfl⟩ := h; rfl
theorem ChipOnly.temps : t.temps = s.temps := by obtain ⟨_, _, _, rfl⟩ := h; rfl
theorem ChipOnly.transferring : t.transferring = s.transferring := by
  obtain ⟨_, _, _, rfl⟩ := h; rfl
theorem ChipOnly.cix : t.cix = s.cix := by obtain ⟨_, _, _, rfl⟩ := h; rfl
theorem ChipOnly.commands : t.commands = s.commands := by obtain ⟨_, _, _, rfl⟩ := h; rfl
theorem ChipOnly.responses : t.responses = s.responses := by obtain ⟨_, _, _, rfl⟩ := h; rfl
theorem ChipOnly.cfg : t.cfg = s.cfg := by obtain ⟨_, _, _, rfl⟩ := h; rfl
theorem ChipOnly.answers : t.answers = s.answers := by obtain ⟨_, _, _, rfl⟩ := h; rfl
theorem ChipOnly.agenda : t.agenda = s.agenda := by obtain ⟨_, _, _, rfl⟩ := h; rfl
theorem ChipOnly.trace : t.trace = s.trace := by obtain ⟨_, _, _, rfl⟩ := h; rfl
end Fields

section BusWrite
variable (a : Byte) (data : List Byte) (s : State)
@[simp] theorem busWrite_busy : (busWrite a data s).busy = s.busy := (chipOnly_busWrite a data s).busy
@[simp] theorem busWrite_cmd : (busWrite a data s).cmd = s.cmd := (chipOnly_busWrite a data s).cmd
@[simp] theorem busWrite_stepNo : (busWrite a data s).stepNo = s.stepNo :=
  (chipOnly_busWrite a data s).stepNo
@[simp] theorem busWrite_temps : (busWrite a data s).temps = s.temps :=
  (chipOnly_busWrite a data s).temps
@[simp] theorem busWrite_transferring : (busWrite a data s).transferring = s.transferring :=
  (chipOnly_busWrite a data s).transferring
@[simp] theorem busWrite_cix : (busWrite a data s).cix = s.cix := (chipOnly_busWrite a data s).cix
@[simp] theorem busWrite_commands : (busWrite a data s).commands = s.commands :=
  (chipOnly_busWrite a data s).commands
@[simp] theorem busWrite_responses : (busWrite a data s).responses = s.responses :=
  (chipOnly_busWrite a data s).responses
@[simp] theorem busWrite_cfg : (busWrite a data s).cfg = s.cfg := (chipOnly_busWrite a data s).cfg
@[simp] theorem busWrite_answers : (busWrite a data s).answers = s.answers :=
  (chipOnly_busWrite a data s).answers
@[simp] theorem busWrite_agenda : (busWrite a data s).agenda = s.agenda :=
  (chipOnly_busWrite a data s).agenda
@[simp] theorem busWrite_trace : (busWrite a data s).trace = s.trace :=
  (chipOnly_busWrite a data s).trace
@[simp] theorem busWrite_nil : busWrite a [] s = { s with ap := a } := rfl
end BusWrite

section AfterRead
variable (s : State)
@[simp] theorem afterRead_busy : (afterRead s).busy = s.busy := (chipOnly_afterRead s).busy
@[simp] theorem afterRead_cmd : (afterRead s).cmd = s.cmd := (chipOnly_afterRead s).cmd
@[simp] theorem afterRead_stepNo : (afterRead s).stepNo = s.stepNo := (chipOnly_afterRead s).stepNo
@[simp] theorem afterRead_temps : (afterRead s).temps = s.temps := (chipOnly_afterRead s).temps
@[simp] theorem afterRead_transferring : (afterRead s).transferring = s.transferring :=
  (chipOnly_afterRead s).transferring
@[simp] theorem afterRead_cix : (afterRead s).cix = s.cix := (chipOnly_afterRead s).cix
@[simp] theorem afterRead_commands : (afterRead s).commands = s.commands :=
  (chipOnly_afterRead s).commands
@[simp] theorem afterRead_responses : (afterRead s).responses = s.responses :=
  (chipOnly_afterRead s).responses
@[simp] theorem afterRead_cfg : (afterRead s).cfg = s.cfg := (chipOnly_afterRead s).cfg
@[simp] theorem afterRead_answers : (afterRead s).answers = s.answers :=
  (chipOnly_afterRead s).answers
@[simp] theorem afterRead_agenda : (afterRead s).agenda = s.agenda := (chipOnly_afterRead s).agenda
@[simp] theorem afterRead_trace : (afterRead s).trace = s.trace := (chipOnly_afterRead s).trace
@[simp] theorem afterRead_mem : (afterRead s).mem = s.mem := by
  unfold afterRead; cases s.cfg.device <;> rfl
end AfterRead

/-! The canonical form. -/

theorem wf_strayWrite {s : State} (h : Memory.wf s.mem = true) :
    Memory.wf (strayWrite s).mem = true := by
  unfold strayWrite
  cases s.cfg.device
  · exact h
  · simp only [State.spend_mem]
    exact wf_havoc _ h

theorem inMap_le {a : Byte} (h : inMap a = true) : a.toNat ≤ regTop := by simpa [inMap] using h

theorem wf_storeInMap {a : Byte} (v : Byte) {s : State} (ha : inMap a = true)
    (h : Memory.wf s.mem = true) : Memory.wf (storeInMap a v s).mem = true := by
  unfold storeInMap
  cases s.cfg.device <;> exact wf_set _ h (inMap_le ha)

@[simp] theorem bumpPointer_mem (s : State) : (bumpPointer s).mem = s.mem := by
  unfold bumpPointer
  cases s.cfg.device
  · rfl
  · dsimp only; split_ifs <;> rfl

theorem wf_storeByte {s : State} (v : Byte) (h : Memory.wf s.mem = true) :
    Memory.wf (storeByte s v).mem = true := by
  simp only [storeByte, bumpPointer_mem]
  split_ifs with ha
  · exact wf_storeInMap v ha h
  · exact wf_strayWrite h

theorem wf_busWrite (a : Byte) (data : List Byte) {s : State} (h : Memory.wf s.mem = true) :
    Memory.wf (busWrite a data s).mem = true := by
  have main : ∀ (data : List Byte) (s : State), Memory.wf s.mem = true →
      Memory.wf (data.foldl storeByte s).mem = true := by
    intro data
    induction data with
    | nil => exact fun s h => h
    | cons v vs ih => exact fun s h => ih _ (wf_storeByte v h)
  exact main data _ h

theorem wf_leaveBytes (a : Byte) (data left : List Byte) {s : State} (h : Memory.wf s.mem = true) :
    Memory.wf (leaveBytes a data left s).mem = true := by
  induction data generalizing a left s with
  | nil => exact h
  | cons v vs ih =>
    refine ih _ _ ?_
    unfold leaveByte
    split_ifs with ha
    · cases left.head?
      · exact h
      · exact wf_set _ h (inMap_le ha)
    · exact wf_strayWrite h

theorem wf_disturb (t : Txn) (left : List Byte) {s : State} (h : Memory.wf s.mem = true) :
    Memory.wf (disturb t left s).mem = true := by
  cases t with
  | write a data => exact wf_leaveBytes a data left h
  | read => exact h

theorem wf_masterStep (t : Txn) {s : State} (h : Memory.wf s.mem = true) :
    Memory.wf (masterStep t s).mem = true := by
  cases t with
  | write a data => exact wf_busWrite a data h
  | read => simpa [masterStep] using h

theorem wf_chipStep (cells : List Host.Cell) {s : State} (h : Memory.wf s.mem = true) :
    Memory.wf (chipStep cells s).mem = true := by
  unfold chipStep
  cases s.cfg.chipEnv
  · exact wf_chipCells cells h
  · exact h

theorem wf_chipPowerUp (regs : Vector Byte 19) (p : Byte) (s : State) :
    Memory.wf (chipPowerUp regs p s).mem = true := wf_listedFrom (by simp [regTop])

/-- After a power-up each register holds the byte the move brings for it. -/
theorem regByte_chipPowerUp (regs : Vector Byte 19) (p : Byte) (s : State) {a : Nat} (h : a < 19) :
    (chipPowerUp regs p s).regByte a = regs[a] := by
  have e := get?_listedFrom 0 a regs.toList
  rw [Nat.zero_add] at e
  simp [State.regByte, chipPowerUp, e, h]

/-! Which registers a write changes. -/

theorem storeInMap_other {a v : Byte} {s : State} {r : Nat} (h : r ≠ a.toNat) :
    (storeInMap a v s).regByte r = s.regByte r := by
  unfold storeInMap
  cases s.cfg.device <;> exact regByte_setReg_other s _ h

theorem strayWrite_reference {s : State} (h : s.cfg.device = .reference) : strayWrite s = s := by
  simp [strayWrite, h]

/-- A data byte changes no register but the one the pointer names. -/
theorem storeByte_other {s : State} {v : Byte} {r : Nat} (h : r ≠ s.ap.toNat)
    (hm : inMap s.ap = true ∨ s.cfg.device = .reference) :
    (storeByte s v).regByte r = s.regByte r := by
  have hb : (storeByte s v).regByte r =
      (if inMap s.ap then storeInMap s.ap v s else strayWrite s).regByte r :=
    regByte_congr (bumpPointer_mem _) r
  rw [hb]
  split_ifs with ha
  · exact storeInMap_other h
  · rw [strayWrite_reference (hm.resolve_left ha)]

@[simp] theorem storeByte_cfg (s : State) (v : Byte) : (storeByte s v).cfg = s.cfg :=
  (chipOnly_storeByte s v).cfg

/-- Where the pointer stays below `0x12`, it goes up by one on either device. -/
theorem storeByte_ap {s : State} (v : Byte) (h : s.ap.toNat < regTop) :
    (storeByte s v).ap = s.ap + 1 := by
  have hin : inMap s.ap = true := by simp [inMap]; omega
  have key : ∀ u : State, u.ap = s.ap → (bumpPointer u).ap = s.ap + 1 := by
    intro u hu
    unfold bumpPointer
    cases u.cfg.device
    · simp [hu]
    · simp [hu, h]
  simp only [storeByte, hin, if_true]
  apply key
  unfold storeInMap
  cases s.cfg.device <;> rfl

/-- The register the pointer names holds the byte, where a register keeps what is written to it. -/
theorem storeByte_same {s : State} {v : Byte} (hin : inMap s.ap = true)
    (hk : keepsWrites s s.ap.toNat) : (storeByte s v).regByte s.ap.toNat = v := by
  have hb : (storeByte s v).regByte s.ap.toNat = (storeInMap s.ap v s).regByte s.ap.toNat := by
    simpa only [storeByte, hin, if_true] using regByte_congr (bumpPointer_mem _) s.ap.toNat
  rw [hb]
  unfold storeInMap
  cases hd : s.cfg.device
  · simp
  · obtain h | ⟨h1, h2, h3⟩ := hk
    · simp [hd] at h
    · have e : ∀ b : Byte, s.ap.toNat ≠ b.toNat → s.ap ≠ b := fun b h e => h (by rw [e])
      have k1 : s.ap ≠ RA.status := e _ h1
      have k2 : s.ap ≠ RA.tempHi := e _ h2
      have k3 : s.ap ≠ RA.tempLo := e _ h3
      simp [keptByte, k1, k2, k3, State.regByte, State.spend, State.setReg]

/-- A status byte written to a real chip: an alarm flag stays set only if it was set and is written as
1, so no write raises one. -/
theorem storeByte_flags {s : State} {v : Byte} (hd : s.cfg.device = .real) (ha : s.ap = RA.status) :
    (storeByte s v).regByte 0x0F &&& 0x03 = s.regByte 0x0F &&& v &&& 0x03 := by
  have hin : inMap s.ap = true := by rw [ha]; rfl
  have hb : (storeByte s v).regByte 0x0F = (storeInMap s.ap v s).regByte 0x0F := by
    simpa only [storeByte, hin, if_true] using regByte_congr (bumpPointer_mem _) 0x0F
  have hs : (storeInMap s.ap v s).regByte 0x0F =
      keptByte RA.status (s.regByte 0x0F) v (Config.freeByte s.draws) := by
    rw [ha, storeInMap, hd]
    exact regByte_setReg_same s 0x0F _
  rw [hb, hs, keptByte, if_pos rfl]
  ext k hk
  interval_cases k <;> simp

theorem keepsWrites_congr {s t : State} (h : t.cfg = s.cfg) (a : Nat) :
    keepsWrites t a ↔ keepsWrites s a := by simp [keepsWrites, h]

end Sys2Proof.Machine
end

