-- ==== Sys2Proof/Laws/Commands.lean ====
section
/-! SUPPORT. What one engine step can do, once for all commands: accept, refuse, transact or respond. -/

namespace Sys2Proof.Machine

/-- The transactions of a command's rule, in order, given the temporaries of `s`. -/
def planOf (s : State) : Instr → List Txn
  | .rdreg a => readRegister a
  | .wrreg a v => writeRegister a v
  | .bcd2dec _ | .dec2bcd _ | .leap _ | .epoch _ _ _ _ _ _ => []
  | .year => readRegister RA.year
  | .month => readRegister RA.month
  | .date => readRegister RA.date
  | .wday | .dayname => readRegister RA.day
  | .hour => readRegister RA.hour
  | .min => readRegister RA.minute
  | .sec => readRegister RA.second
  | .rdstat => readRegister RA.status
  | .rdctl => readRegister RA.control
  | .temph => readRegister RA.tempHi
  | .templ => readRegister RA.tempLo
  | .timestr => readRegisters [RA.hour, RA.minute, RA.second]
  | .datestr => readRegisters [RA.date, RA.month, RA.year]
  | .unixts => readRegisters [RA.year, RA.month, RA.date, RA.hour, RA.minute, RA.second]
  | .setalm n m d wd h mi =>
    [.write (alarmBase n) [bcdByte mi, alarmHourByte m h, dayDateByte m d wd]]
  | .aie n en =>
    readRegister RA.control ++ writeRegister RA.control (setOrClear en (alarmMask n) (s.tmp 0))
  | .aclr n =>
    readRegister RA.status ++ writeRegister RA.status (s.tmp 0 &&& not8 (alarmMask n))
  | .gint en =>
    readRegister RA.control ++ writeRegister RA.control (setOrClear en intcnMask (s.tmp 0))
  | .setdt y mo d wd h mi sc =>
    [.write RA.second [bcdByte sc, bcdByte mi, bcdByte h, bcdByte wd, bcdByte d, bcdByte mo,
      bcdByte (y - yearBase)]]

/-- The numeric result of a command that has completed its transactions in `s`
(30_encoding.md R126). -/
def valueOf (s : State) : Instr → Nat
  | .rdreg _ | .rdstat | .rdctl | .temph | .templ => (s.tmp 0).toNat
  | .wrreg _ _ | .setalm _ _ _ _ _ _ | .aie _ _ | .aclr _ | .gint _ => 0
  | .setdt _ _ _ _ _ _ _ | .timestr | .datestr => 0
  | .bcd2dec v => bcdToDecimal v
  | .dec2bcd v => decimalToBcd v.toNat
  | .year => yearValue (s.tmp 0)
  | .month => monthValue s.cfg.monthMask (s.tmp 0)
  | .date => dateValue (s.tmp 0)
  | .wday => weekdayValue (s.tmp 0)
  | .dayname => dayNameIndex (s.tmp 0)
  | .hour => hourValue (s.tmp 0)
  | .min => minuteValue (s.tmp 0)
  | .sec => secondValue (s.tmp 0)
  | .unixts => epochSeconds (yearValue (s.tmp 0)) (monthValue s.cfg.monthMask (s.tmp 1))
      (dateValue (s.tmp 2)) (hourValue (s.tmp 3)) (minuteValue (s.tmp 4)) (secondValue (s.tmp 5))
  | .leap y => if isLeap y then 1 else 0
  | .epoch y mo d h mi sc => epochSeconds y mo d h mi sc

/-- The text result of a command that has completed its transactions in `s` (30_encoding.md R126). -/
def textOf (s : State) : Instr → Text
  | .dayname =>
    if dayNameIndex (s.tmp 0) ≤ 7 then dayName s.cfg.dayNames (dayNameIndex (s.tmp 0))
    else Config.freeText s.draws
  | .timestr => timeText (hourValue (s.tmp 0)) (minuteValue (s.tmp 1)) (secondValue (s.tmp 2))
  | .datestr =>
    dateText (dateValue (s.tmp 0)) (monthValue .stripCentury (s.tmp 1)) (yearValue (s.tmp 2))
  | _ => []

/-- The free values a command's response uses: one, when DAYNAME answers with index 8. -/
def drawsOf (s : State) : Instr → Nat
  | .dayname => if dayNameIndex (s.tmp 0) ≤ 7 then 0 else 1
  | _ => 0

/-- The response step of a command (10_state.md R26). -/
def finishOf (i : Instr) (s : State) : State :=
  respond (valueOf s i) (textOf s i) (State.spend (drawsOf s i) s)

/-- One engine step of any command, from its checks, its transactions and its response. -/
theorem exec_eq (i : Instr) (s : State) :
    exec i s = runCommand i (badOperand i) (planOf s i) (finishOf i) s := by
  cases i
  case dayname =>
    have h : respondDayName = finishOf .dayname := by
      funext u
      simp only [respondDayName, finishOf, valueOf, textOf, drawsOf]
      split_ifs <;> rfl
    simp only [exec, execDayname, h]
    rfl
  all_goals rfl

/-- A command's rule has as many transactions as the opcode map says (30_encoding.md R110). -/
@[simp] theorem planOf_length (s : State) (i : Instr) : (planOf s i).length = i.busCount := by
  cases i <;> rfl

@[simp] theorem finishOf_next_fields (i : Instr) (s : State) :
    (finishOf i s).busy = false ∧ (finishOf i s).cix = s.cix + 1 ∧
      (finishOf i s).responses = s.responses ++ [okResponse (valueOf s i) (textOf s i)] ∧
      (finishOf i s).mem = s.mem ∧ (finishOf i s).ap = s.ap ∧ (finishOf i s).trace = s.trace :=
  ⟨rfl, rfl, rfl, rfl, rfl, rfl⟩

theorem runCommand_idle_good {i : Instr} {plan : List Txn} {fin : State → State} {s : State}
    (h : s.busy = false) : runCommand i none plan fin s = .next (accept i s) := by
  simp [runCommand, h]

theorem runCommand_idle_bad {i : Instr} {plan : List Txn} {fin : State → State} {s : State} {k : Nat}
    (h : s.busy = false) :
    runCommand i (some k) plan fin s = .next (raise .invalidArgument k s) := by
  simp [runCommand, h]

theorem runCommand_transact {i : Instr} {bad : Option Nat} {plan : List Txn} {fin : State → State}
    {s : State} {t : Txn} (h : s.busy = true) (ht : plan[s.stepNo]? = some t) :
    runCommand i bad plan fin s = .next (transact t s) := by
  simp [runCommand, h, ht]

theorem runCommand_respond {i : Instr} {bad : Option Nat} {plan : List Txn} {fin : State → State}
    {s : State} (h : s.busy = true) (ht : plan.length ≤ s.stepNo) :
    runCommand i bad plan fin s = .next (fin s) := by
  simp [runCommand, h, ht]

/-- Everything one engine step of a command can do. -/
theorem exec_cases {i : Instr} {s t : State} (h : exec i s = .next t) :
    (s.busy = false ∧ badOperand i = none ∧ t = accept i s) ∨
    (∃ k, s.busy = false ∧ badOperand i = some k ∧ t = raise .invalidArgument k s) ∨
    (∃ x, s.busy = true ∧ (planOf s i)[s.stepNo]? = some x ∧ s.stepNo < i.busCount ∧
      t = transact x s) ∨
    (s.busy = true ∧ i.busCount ≤ s.stepNo ∧ t = finishOf i s) := by
  rw [exec_eq] at h
  unfold runCommand at h
  split at h
  · rename_i hb
    split at h
    · rename_i x hx
      cases h
      obtain ⟨hl, -⟩ := List.getElem?_eq_some_iff.mp hx
      rw [planOf_length] at hl
      exact .inr (.inr (.inl ⟨x, hb, hx, hl, rfl⟩))
    · rename_i hx
      cases h
      have hl := List.getElem?_eq_none_iff.mp hx
      rw [planOf_length] at hl
      exact .inr (.inr (.inr ⟨hb, hl, rfl⟩))
  · rename_i hb
    have hb' : s.busy = false := by simpa using hb
    split at h
    · rename_i k hk
      cases h
      exact .inr (.inl ⟨k, hb', hk, rfl⟩)
    · rename_i hk
      cases h
      exact .inl ⟨hb', hk, rfl⟩

/-- No command is ever refused and none faults the machine: every step of every command is a next
state. -/
theorem exec_next (i : Instr) (s : State) : ∃ t, exec i s = .next t := by
  rw [exec_eq]
  unfold runCommand
  split
  · split <;> exact ⟨_, rfl⟩
  · split <;> exact ⟨_, rfl⟩

/-- Everything a transaction can do (20_memory.md R63, R64). -/
theorem transact_cases (x : Txn) (s : State) :
    (s.transferring = true ∧ transact x s = s) ∨
    (s.transferring = false ∧ ∃ b, transact x s = completeTxn x b s.takeAnswer) ∨
    (s.transferring = false ∧ ∃ left, s.answers.head? = some (.error left) ∧
      transact x s =
        raise .busError s.stepNo (logTxn x .failed (disturb x left s.takeAnswer))) ∨
    (s.transferring = false ∧ ∃ left, s.answers.head? = some (.never left) ∧
      transact x s =
        { logTxn x .pending (disturb x left s.takeAnswer) with transferring := true }) := by
  cases ht : s.transferring
  · right
    unfold transact
    rw [ht]
    cases ha : s.answers with
    | nil => exact .inl ⟨rfl, none, by simp⟩
    | cons a as =>
      cases a with
      | ok => exact .inl ⟨rfl, none, by simp⟩
      | okWith b => exact .inl ⟨rfl, some b, by simp⟩
      | error left => exact .inr (.inl ⟨rfl, left, by simp, by simp⟩)
      | never left => exact .inr (.inr ⟨rfl, left, by simp, by simp⟩)
  · exact .inl ⟨rfl, by simp [transact, ht]⟩

/-- With nothing but good answers to come, a transaction completes with the chip's own answer. -/
theorem transact_good (x : Txn) {s : State} (ht : s.transferring = false) (ha : s.BusGood) :
    transact x s = completeTxn x none s := by
  have e : s.takeAnswer = s := by
    unfold State.takeAnswer
    rw [show s.answers.tail = s.answers by rw [ha]; rfl]
  simp [transact, ht, e, show s.answers = [] from ha]

theorem firstFailing_eq_none (k : Nat) (l : List Bool) :
    firstFailing k l = none ↔ l.all id = true := by
  induction l generalizing k with
  | nil => simp [firstFailing]
  | cons g l ih => cases g <;> simp [firstFailing, ih]

/-- A command has no bad operand exactly when its operands are legal. -/
theorem badOperand_eq_none (i : Instr) : badOperand i = none ↔ legalOperands i = true := by
  cases i <;>
    simp [badOperand, legalOperands, epochBad, setalmBad, setdtBad, firstFailing_eq_none, within,
      and_assoc]

end Sys2Proof.Machine
end

