-- ==== Sys2Proof/Laws/Decode.lean ====
section
/-! SUPPORT. The fields of an encoded command read back. -/

namespace Sys2Proof

theorem AlarmName.code_lt (n : AlarmName) : n.code < 2 := by cases n <;> decide

theorem AlarmMode.code_lt (m : AlarmMode) : m.code < 4 := by cases m <;> decide

theorem enableCode_lt (en : Bool) : enableCode en < 2 := by cases en <;> decide

@[simp] theorem alarmNameOf_code (n : AlarmName) : alarmNameOf n.code = n := by cases n <;> rfl

@[simp] theorem alarmModeOf_code (m : AlarmMode) : alarmModeOf m.code = m := by cases m <;> rfl

@[simp] theorem enableCode_beq_one (en : Bool) : (enableCode en == 1) = en := by cases en <;> rfl

/-- The opcode and the operand bits of a well-formed command make a 64-bit number. -/
theorem operandBits_lt {i : Instr} (h : i.WellFormed = true) : i.operandBits < 2 ^ 56 := by
  cases i
  case leap y => simp [Instr.WellFormed] at h; simp only [Instr.operandBits]; omega
  case epoch => simp [Instr.WellFormed] at h; simp only [Instr.operandBits]; omega
  case setalm n m d wd hh mi =>
    have := n.code_lt
    have := m.code_lt
    simp [Instr.WellFormed] at h; simp only [Instr.operandBits]; omega
  case setdt => simp [Instr.WellFormed] at h; simp only [Instr.operandBits]; omega
  case aie n en =>
    have := n.code_lt
    have := enableCode_lt en
    simp only [Instr.operandBits]; omega
  case aclr n => have := n.code_lt; simp only [Instr.operandBits]; omega
  case gint en => have := enableCode_lt en; simp only [Instr.operandBits]; omega
  all_goals simp only [Instr.operandBits]; omega

theorem opcode_lt (i : Instr) : i.opcode < 256 := by cases i <;> simp [Instr.opcode]

theorem encode_toNat {i : Instr} (h : i.WellFormed = true) :
    (encode i).toNat = 2 ^ 56 * i.opcode + i.operandBits := by
  have h1 := operandBits_lt h
  have h2 := opcode_lt i
  rw [encode, BitVec.toNat_ofNat]
  exact Nat.mod_eq_of_lt (by omega)

/-- A field of an encoded command lies in its operand bits. -/
theorem bits_encode {i : Instr} (h : i.WellFormed = true) (hi lo : Nat) :
    bits (encode i) hi lo = (2 ^ 56 * i.opcode + i.operandBits) / 2 ^ lo % 2 ^ (hi - lo + 1) := by
  rw [bits, encode_toNat h]

/-- The opcode of an encoded command is the one of its row. -/
theorem opcode_encode {i : Instr} (h : i.WellFormed = true) :
    Sys2Proof.opcode (encode i) = i.opcode := by
  have h1 := operandBits_lt h
  have h2 := opcode_lt i
  rw [Sys2Proof.opcode, bits_encode h]
  omega

/-- A mask of the bits `hi` down to `lo` selects the field made of them. -/
theorem and_segment {w : Word64} {hi lo v : Nat} (hl : lo ≤ hi) (hh : hi < 64)
    (hv : v < 2 ^ (hi - lo + 1)) :
    w &&& BitVec.ofNat 64 (2 ^ (hi + 1) - 2 ^ lo) = BitVec.ofNat 64 (v * 2 ^ lo) ↔
      bits w hi lo = v := by
  have key : (w &&& BitVec.ofNat 64 (2 ^ (hi + 1) - 2 ^ lo)).toNat = bits w hi lo * 2 ^ lo := by
    have hm : (2 ^ (hi + 1) - 2 ^ lo) % 2 ^ 64 = (2 ^ (hi - lo + 1) - 1) <<< lo := by
      have h1 : 2 ^ (hi + 1) ≤ 2 ^ 64 := Nat.pow_le_pow_right (by decide) (by omega)
      have h2 := Nat.two_pow_pos lo
      rw [Nat.mod_eq_of_lt (by omega), Nat.shiftLeft_eq, Nat.sub_mul, ← Nat.pow_add]
      congr 2 <;> omega
    rw [BitVec.toNat_and, BitVec.toNat_ofNat, hm, bits, ← Nat.shiftRight_eq_div_pow,
      ← Nat.shiftLeft_eq]
    apply Nat.eq_of_testBit_eq
    intro i
    simp only [Nat.testBit_and, Nat.testBit_shiftLeft, Nat.testBit_two_pow_sub_one,
      Nat.testBit_mod_two_pow, Nat.testBit_shiftRight]
    by_cases h : lo ≤ i
    · simp [h, Bool.and_comm]
    · simp [h]
  have hs : ∀ x, x < 2 ^ (hi - lo + 1) → x * 2 ^ lo < 2 ^ 64 := by
    intro x hx
    have h1 : 2 ^ (hi - lo + 1) * 2 ^ lo = 2 ^ (hi + 1) := by rw [← Nat.pow_add]; congr 1; omega
    have h2 : 2 ^ (hi + 1) ≤ 2 ^ 64 := Nat.pow_le_pow_right (by decide) (by omega)
    have h3 := Nat.mul_lt_mul_of_pos_right hx (Nat.two_pow_pos lo)
    omega
  rw [← BitVec.toNat_inj, key, BitVec.toNat_ofNat, Nat.mod_eq_of_lt (hs v hv)]
  exact ⟨fun h => Nat.eq_of_mul_eq_mul_right (Nat.two_pow_pos lo) h, fun h => by rw [h]⟩

/-- A mask of two separate parts selects both. -/
theorem and_or_eq {w m n f g : Word64} (hf : f &&& n = 0) (hg : g &&& m = 0) (hfm : f &&& m = f)
    (hgn : g &&& n = g) : w &&& (m ||| n) = f ||| g ↔ w &&& m = f ∧ w &&& n = g := by
  constructor
  · intro h
    have e : ∀ i (hi : i < 64), (w[i] && (m[i] || n[i])) = (f[i] || g[i]) := by
      intro i hi
      simpa using congrArg (fun x : Word64 => x[i]) h
    have c : ∀ (a b r : Word64), a &&& b = r → ∀ i (hi : i < 64), (a[i] && b[i]) = r[i] := by
      intro a b r hab i hi
      simpa using congrArg (fun x : Word64 => x[i]) hab
    constructor <;> ext i hi <;>
      (have e1 := e i hi
       have e2 := c _ _ _ hf i hi
       have e3 := c _ _ _ hg i hi
       have e4 := c _ _ _ hfm i hi
       have e5 := c _ _ _ hgn i hi
       revert e1 e2 e3 e4 e5
       simp only [BitVec.getElem_and]
       cases w[i] <;> cases m[i] <;> cases n[i] <;> cases f[i] <;> cases g[i] <;> simp)
  · rintro ⟨rfl, rfl⟩
    ext i hi
    simp only [BitVec.getElem_and, BitVec.getElem_or]
    cases w[i] <;> cases m[i] <;> cases n[i] <;> rfl

end Sys2Proof
end

