-- ==== Sys2Proof/Laws/Engine.lean ====
section
/-! SUPPORT. What one step of the whole machine can do, and the run of a whole command. -/

namespace Sys2Proof.Machine

theorem runDecoded_ok (i : Instr) (s : State) : runDecoded (.ok i) s = exec i s := rfl

theorem currentWord_busy {s : State} (h : s.busy = true) : s.currentWord = some s.cmd := by
  simp [State.currentWord, h]

theorem currentWord_idle {s : State} (h : s.busy = false) : s.currentWord = s.commands[s.cix]? := by
  simp [State.currentWord, h]

/-- The engine's step on a word that decodes. -/
theorem engineStep_ok {s : State} {w : Word64} {i : Instr} (hw : s.currentWord = some w)
    (hd : decode w = .ok i) : engineStep s = exec i s := by
  rw [engineStep, hw]
  show runDecoded (decode w) s = _
  rw [hd, runDecoded_ok]

/-- The engine's step on a word presented that does not decode. -/
theorem engineStep_error {s : State} {w : Word64} {e : DecodeError} (hb : s.busy = false)
    (hw : s.currentWord = some w) (hd : decode w = .error e) :
    engineStep s = .next (raise .illegalCommand e.info s) := by
  rw [engineStep, hw]
  show runDecoded (decode w) s = _
  simp [hd, runDecoded, hb]

theorem engineStep_waits {s : State} (hw : s.currentWord = none) : engineStep s = .next s := by
  rw [engineStep, hw]

/-- Everything the engine's step can do. -/
theorem engineStep_cases {s t : State} (h : engineStep s = .next t) :
    t = s ∨
    (∃ w i, s.currentWord = some w ∧ decode w = .ok i ∧ exec i s = .next t) ∨
    (∃ w e, s.busy = false ∧ s.currentWord = some w ∧ decode w = .error e ∧
      t = raise .illegalCommand e.info s) := by
  cases hw : s.currentWord with
  | none =>
    rw [engineStep_waits hw] at h
    cases h
    exact .inl rfl
  | some w =>
    cases hd : decode w with
    | ok i =>
      rw [engineStep_ok hw hd] at h
      exact .inr (.inl ⟨w, i, rfl, hd, h⟩)
    | error e =>
      cases hb : s.busy
      · rw [engineStep_error hb hw hd] at h
        cases h
        exact .inr (.inr ⟨w, e, rfl, rfl, hd, rfl⟩)
      · rw [engineStep, hw] at h
        change runDecoded (decode w) s = _ at h
        simp [hd, runDecoded, hb] at h

/-- Everything a step of the machine can do, by the agent that moves. -/
theorem step_cases {s t : State} (h : step s = .next t) :
    (s.agenda = [] ∧ engineStep s = .next t) ∨
    (∃ rest, s.agenda = .engine :: rest ∧ engineStep { s with agenda := rest } = .next t) ∨
    (∃ cells rest, s.agenda = .chip cells :: rest ∧ t = chipStep cells { s with agenda := rest }) ∨
    (∃ x rest, s.agenda = .master x :: rest ∧ t = masterStep x { s with agenda := rest }) ∨
    (∃ rest, s.agenda = .reset :: rest ∧ t = engineReset { s with agenda := rest }) ∨
    (∃ regs p rest, s.agenda = .powerUp regs p :: rest ∧
      t = chipPowerUp regs p { s with agenda := rest }) := by
  unfold step machineStep at h
  split at h
  · rename_i ha; exact .inl ⟨ha, h⟩
  · rename_i rest ha; exact .inr (.inl ⟨rest, ha, h⟩)
  · rename_i cells rest ha; cases h; exact .inr (.inr (.inl ⟨cells, rest, ha, rfl⟩))
  · rename_i x rest ha; cases h; exact .inr (.inr (.inr (.inl ⟨x, rest, ha, rfl⟩)))
  · rename_i rest ha; cases h; exact .inr (.inr (.inr (.inr (.inl ⟨rest, ha, rfl⟩))))
  · rename_i regs p rest ha
    cases h
    exact .inr (.inr (.inr (.inr (.inr ⟨regs, p, rest, ha, rfl⟩))))

theorem step_engine {s : State} (h : s.agenda = []) : step s = engineStep s := by
  rw [step, machineStep, h]

theorem step_engine_move {s : State} {rest : List Move} (h : s.agenda = .engine :: rest) :
    step s = engineStep { s with agenda := rest } := by
  rw [step, machineStep, h]

theorem step_chip {s : State} {cells : List Host.Cell} {rest : List Move}
    (h : s.agenda = .chip cells :: rest) :
    step s = .next (chipStep cells { s with agenda := rest }) := by
  rw [step, machineStep, h]

theorem step_master {s : State} {x : Txn} {rest : List Move} (h : s.agenda = .master x :: rest) :
    step s = .next (masterStep x { s with agenda := rest }) := by
  rw [step, machineStep, h]

theorem step_reset {s : State} {rest : List Move} (h : s.agenda = .reset :: rest) :
    step s = .next (engineReset { s with agenda := rest }) := by
  rw [step, machineStep, h]

theorem step_powerUp {s : State} {regs : Vector Byte 19} {p : Byte} {rest : List Move}
    (h : s.agenda = .powerUp regs p :: rest) :
    step s = .next (chipPowerUp regs p { s with agenda := rest }) := by
  rw [step, machineStep, h]

/-- A word placed at a position is found there. -/
theorem placeAt_get (w : Word64) (l : List Word64) (n : Nat) : (placeAt w l n)[n]? = some w := by
  induction n generalizing l with
  | zero => cases l <;> rfl
  | succ n ih => cases l <;> simp [placeAt, ih]

/-- The other positions of the list keep their words. -/
theorem placeAt_get_other (w : Word64) {l : List Word64} {n k : Nat} (h : k ≠ n) (hk : k < l.length) :
    (placeAt w l n)[k]? = l[k]? := by
  induction l generalizing n k with
  | nil => simp at hk
  | cons v l ih =>
    cases n with
    | zero =>
      obtain ⟨j, rfl⟩ : ∃ j, k = j + 1 := ⟨k - 1, by omega⟩
      rfl
    | succ n =>
      cases k with
      | zero => rfl
      | succ k => simpa [placeAt] using ih (by omega) (by simpa using hk)

/-- Before its last transaction a command has a next one. -/
theorem plan_some {i : Instr} {s : State} (h : s.stepNo < i.busCount) :
    ∃ x, (planOf s i)[s.stepNo]? = some x := by
  rw [← planOf_length s i] at h
  exact ⟨_, List.getElem?_eq_getElem h⟩

/-- A pending transaction holds the command where it is. -/
theorem exec_pending {i : Instr} {s : State} (hb : s.busy = true) (ht : s.transferring = true)
    (hl : s.stepNo < i.busCount) : exec i s = .next s := by
  obtain ⟨x, hx⟩ := plan_some hl
  rw [exec_eq, runCommand_transact hb hx]
  simp [transact, ht]

/-- Which register each transaction of a command writes. -/
theorem plan_writes {i : Instr} {s : State} {n : Nat} {a : Byte} {data : List Byte}
    (h : (planOf s i)[n]? = some (.write a data)) (hd : data ≠ []) (hi : ∀ b v, i ≠ .wrreg b v) :
    a.toNat + data.length ≤ 0x13 ∧
      ∀ k, k < data.length → a.toNat + k ∈ writtenRegisters i := by
  have hm : Txn.write a data ∈ planOf s i := List.mem_of_getElem? h
  cases i
  case wrreg b v => exact absurd rfl (hi b v)
  case setalm n m d wd h mi =>
    simp only [planOf, List.mem_singleton, Txn.write.injEq] at hm
    obtain ⟨rfl, rfl⟩ := hm
    cases n <;> simp [alarmBase, RA.alarm1, RA.alarm2, writtenRegisters] <;> omega
  case setdt =>
    simp only [planOf, List.mem_singleton, Txn.write.injEq] at hm
    obtain ⟨rfl, rfl⟩ := hm
    simp [RA.second, writtenRegisters]
    omega
  all_goals simp [planOf, readRegisters, readRegister, writeRegister, hd] at hm
  all_goals
    obtain ⟨rfl, rfl⟩ := hm
    simp [RA.control, RA.status, writtenRegisters]

/-- The first engine step of a run of several. -/
theorem execFor_succ {k : Nat} {i : Instr} {s t : State} (h : exec i s = .next t) :
    execFor (k + 1) i s = execFor k i t := by
  simp only [execFor, h]

end Sys2Proof.Machine
end

