-- ==== Sys2Proof/Laws/PerInstr.lean ====
section
/-! SUPPORT. Statements made per instruction (LAWS.json): the family EncodesOpcode. -/

namespace Sys2Proof.Laws.EncodesOpcode

/-- A well-formed command's word carries its opcode in `w[63:56]` (30_encoding.md R100). -/
def Statement (i : Instr) : Prop := i.WellFormed = true → opcode (encode i) = i.opcode

theorem rdreg (a : Byte) : Statement (.rdreg a) := opcode_encode
theorem wrreg (a v : Byte) : Statement (.wrreg a v) := opcode_encode
theorem bcd2dec (v : Byte) : Statement (.bcd2dec v) := opcode_encode
theorem dec2bcd (v : Byte) : Statement (.dec2bcd v) := opcode_encode
theorem year : Statement .year := opcode_encode
theorem month : Statement .month := opcode_encode
theorem date : Statement .date := opcode_encode
theorem wday : Statement .wday := opcode_encode
theorem dayname : Statement .dayname := opcode_encode
theorem hour : Statement .hour := opcode_encode
theorem min : Statement .min := opcode_encode
theorem sec : Statement .sec := opcode_encode
theorem rdstat : Statement .rdstat := opcode_encode
theorem rdctl : Statement .rdctl := opcode_encode
theorem temph : Statement .temph := opcode_encode
theorem templ : Statement .templ := opcode_encode
theorem timestr : Statement .timestr := opcode_encode
theorem datestr : Statement .datestr := opcode_encode
theorem unixts : Statement .unixts := opcode_encode
theorem leap (y : Nat) : Statement (.leap y) := opcode_encode
theorem epoch (y mo d h mi s : Nat) : Statement (.epoch y mo d h mi s) := opcode_encode
theorem setalm (n : AlarmName) (m : AlarmMode) (d wd h mi : Nat) :
    Statement (.setalm n m d wd h mi) := opcode_encode
theorem aie (n : AlarmName) (en : Bool) : Statement (.aie n en) := opcode_encode
theorem aclr (n : AlarmName) : Statement (.aclr n) := opcode_encode
theorem gint (en : Bool) : Statement (.gint en) := opcode_encode
theorem setdt (y mo d wd h mi s : Nat) : Statement (.setdt y mo d wd h mi s) := opcode_encode

end Sys2Proof.Laws.EncodesOpcode
end

