-- ==== Sys2Proof/Laws/Runs.lean ====
section
/-! SUPPORT. Whole commands on a good bus: a run of engine steps as a run of transactions, and what a run of register reads reads. -/

namespace Sys2Proof.Machine

@[simp] theorem completeTxn_write (a : Byte) (data : List Byte) (b : Option Byte) (s : State) :
    completeTxn (.write a data) b s =
      logTxn (.write a data) (.done none) { busWrite a data s with stepNo := s.stepNo + 1 } := rfl

section CompleteTxn
variable (x : Txn) (b : Option Byte) (s : State)
@[simp] theorem completeTxn_busy : (completeTxn x b s).busy = s.busy := by
  cases x <;> simp [completeTxn]
@[simp] theorem completeTxn_cmd : (completeTxn x b s).cmd = s.cmd := by
  cases x <;> simp [completeTxn]
@[simp] theorem completeTxn_stepNo : (completeTxn x b s).stepNo = s.stepNo + 1 := by
  cases x <;> simp [completeTxn]
@[simp] theorem completeTxn_transferring : (completeTxn x b s).transferring = s.transferring := by
  cases x <;> simp [completeTxn]
@[simp] theorem completeTxn_cix : (completeTxn x b s).cix = s.cix := by
  cases x <;> simp [completeTxn]
@[simp] theorem completeTxn_commands : (completeTxn x b s).commands = s.commands := by
  cases x <;> simp [completeTxn]
@[simp] theorem completeTxn_responses : (completeTxn x b s).responses = s.responses := by
  cases x <;> simp [completeTxn]
@[simp] theorem completeTxn_cfg : (completeTxn x b s).cfg = s.cfg := by
  cases x <;> simp [completeTxn]
@[simp] theorem completeTxn_answers : (completeTxn x b s).answers = s.answers := by
  cases x <;> simp [completeTxn]
@[simp] theorem completeTxn_agenda : (completeTxn x b s).agenda = s.agenda := by
  cases x <;> simp [completeTxn]
end CompleteTxn

theorem readByte_in_map {s : State} (h : s.ap.toNat ≤ regTop) : readByte s = s.regByte s.ap.toNat := by
  simp [readByte, inMap, h]

/-- The address write of a register read. -/
theorem completeTxn_address (a : Byte) (b : Option Byte) (s : State) :
    completeTxn (.write a []) b s =
      { s with ap := a, stepNo := s.stepNo + 1,
               trace := s.trace ++ [⟨devAddr, .write a [], .done none⟩] } := rfl

@[simp] theorem completeTxn_read_mem (b : Option Byte) (s : State) :
    (completeTxn .read b s).mem = s.mem := by simp [completeTxn]

@[simp] theorem completeTxn_read_temps (b : Option Byte) (s : State) :
    (completeTxn .read b s).temps = s.temps ++ [b.getD (readByte s)] := by simp [completeTxn]

@[simp] theorem completeTxn_write_temps (a : Byte) (data : List Byte) (b : Option Byte) (s : State) :
    (completeTxn (.write a data) b s).temps = s.temps := by simp [completeTxn]

@[simp] theorem completeTxn_write_mem (a : Byte) (data : List Byte) (b : Option Byte) (s : State) :
    (completeTxn (.write a data) b s).mem = (busWrite a data s).mem := by simp [completeTxn]

/-- Each completed transaction is one record of the trace. -/
theorem completeTxn_trace (x : Txn) (b : Option Byte) (s : State) :
    ∃ r, (completeTxn x b s).trace = s.trace ++ [⟨devAddr, x, r⟩] := by
  cases x <;> simp [completeTxn]

/-- On a good bus the engine step of a command with a transaction left completes it. -/
theorem exec_transacts {i : Instr} {s : State} {x : Txn} (hb : s.busy = true)
    (ht : s.transferring = false) (ha : s.BusGood) (hx : (planOf s i)[s.stepNo]? = some x) :
    exec i s = .next (completeTxn x none s) := by
  rw [exec_eq, runCommand_transact hb hx, transact_good x ht ha]

theorem exec_responds {i : Instr} {s : State} (hb : s.busy = true) (hl : i.busCount ≤ s.stepNo) :
    exec i s = .next (finishOf i s) := by
  rw [exec_eq, runCommand_respond hb (by rwa [planOf_length])]

theorem exec_accepts {i : Instr} {s : State} (hb : s.Idle) (hl : legalOperands i = true) :
    exec i s = .next (accept i s) := by
  rw [exec_eq, (badOperand_eq_none i).2 hl, runCommand_idle_good hb]

/-- The command's transactions, one after another, each completed with the chip's answer. -/
def runTxns (l : List Txn) (s : State) : State := l.foldl (fun s x => completeTxn x none s) s

@[simp] theorem runTxns_nil (s : State) : runTxns [] s = s := rfl

@[simp] theorem runTxns_cons (x : Txn) (l : List Txn) (s : State) :
    runTxns (x :: l) s = runTxns l (completeTxn x none s) := rfl

section RunTxns
variable (l : List Txn) (s : State)
@[simp] theorem runTxns_busy : (runTxns l s).busy = s.busy := by
  induction l generalizing s <;> simp [*]
@[simp] theorem runTxns_transferring : (runTxns l s).transferring = s.transferring := by
  induction l generalizing s <;> simp [*]
@[simp] theorem runTxns_stepNo : (runTxns l s).stepNo = s.stepNo + l.length := by
  induction l generalizing s <;> simp [*]; omega
@[simp] theorem runTxns_cix : (runTxns l s).cix = s.cix := by
  induction l generalizing s <;> simp [*]
@[simp] theorem runTxns_commands : (runTxns l s).commands = s.commands := by
  induction l generalizing s <;> simp [*]
@[simp] theorem runTxns_responses : (runTxns l s).responses = s.responses := by
  induction l generalizing s <;> simp [*]
@[simp] theorem runTxns_cfg : (runTxns l s).cfg = s.cfg := by
  induction l generalizing s <;> simp [*]
@[simp] theorem runTxns_answers : (runTxns l s).answers = s.answers := by
  induction l generalizing s <;> simp [*]
@[simp] theorem runTxns_agenda : (runTxns l s).agenda = s.agenda := by
  induction l generalizing s <;> simp [*]
end RunTxns

/-- The rule of a command does not change its mind: the transactions already done are the ones the
rule has, and the next ones depend on the first byte read only. -/
theorem planOf_congr {s t : State} (h : s.tmp 0 = t.tmp 0) (i : Instr) : planOf s i = planOf t i := by
  cases i <;> simp [planOf, h]

/-- A register read of a good run: the pointer's byte is appended to the temporaries. -/
theorem runTxns_readRegister {a : Byte} (h : a.toNat ≤ regTop) (s : State) :
    (runTxns (readRegister a) s).temps = s.temps ++ [s.regByte a.toNat] ∧
      (runTxns (readRegister a) s).mem = s.mem := by
  have hr : ∀ u : State, u.ap = a → u.mem = s.mem → readByte u = s.regByte a.toNat := by
    intro u hu hm
    rw [readByte_in_map (by rw [hu]; exact h), hu]
    exact regByte_congr hm _
  constructor
  · simp only [readRegister, runTxns_cons, runTxns_nil, completeTxn_read_temps,
      completeTxn_write_temps, Option.getD_none]
    rw [hr]
    · rfl
    · rfl
  · simp [readRegister]

/-- A run of register reads reads the registers in order and changes none. -/
theorem runTxns_readRegisters {as : List Byte} (h : ∀ a ∈ as, a.toNat ≤ regTop) (s : State) :
    (runTxns (readRegisters as) s).temps = s.temps ++ as.map (fun a => s.regByte a.toNat) ∧
      (runTxns (readRegisters as) s).mem = s.mem := by
  induction as generalizing s with
  | nil => simp [readRegisters]
  | cons a as ih =>
    obtain ⟨h1, h2⟩ := runTxns_readRegister (h a List.mem_cons_self) s
    obtain ⟨h3, h4⟩ := ih (fun b hb => h b (List.mem_cons_of_mem _ hb)) (runTxns (readRegister a) s)
    have e : runTxns (readRegisters (a :: as)) s =
        runTxns (readRegisters as) (runTxns (readRegister a) s) := by
      simp [readRegisters, runTxns, List.foldl_append]
    have hc : (fun b : Byte => (runTxns (readRegister a) s).regByte b.toNat) =
        fun b : Byte => s.regByte b.toNat := by
      funext b
      exact regByte_congr h2 _
    rw [e, h3, h1, hc, h4, h2]
    simp

/-- The commands whose transactions do not depend on what they read. -/
def fixedPlan : Instr → Bool
  | .aie _ _ | .aclr _ | .gint _ => false
  | _ => true

theorem planOf_fixed {i : Instr} (h : fixedPlan i = true) (s t : State) :
    planOf s i = planOf t i := by
  cases i <;> first | rfl | simp [fixedPlan] at h

/-- On a good bus the engine works the rest of a fixed list of transactions off and responds. -/
theorem execFor_fixed {i : Instr} (hf : fixedPlan i = true) {s : State} (hb : s.busy = true)
    (ht : s.transferring = false) (ha : s.BusGood) (hn : s.stepNo ≤ i.busCount) :
    execFor (i.busCount - s.stepNo + 1) i s =
      .next (finishOf i (runTxns ((planOf s i).drop s.stepNo) s)) := by
  obtain ⟨k, hk⟩ : ∃ k, k = i.busCount - s.stepNo := ⟨_, rfl⟩
  induction k generalizing s with
  | zero =>
    have hl : (planOf s i).drop s.stepNo = [] :=
      List.drop_eq_nil_of_le (by rw [planOf_length]; omega)
    rw [← hk, execFor_succ (exec_responds hb (by omega)), hl]
    rfl
  | succ k ih =>
    obtain ⟨x, hx⟩ := plan_some (s := s) (i := i) (by omega)
    have hd : (planOf s i).drop s.stepNo = x :: (planOf s i).drop (s.stepNo + 1) := by
      obtain ⟨h1, h2⟩ := List.getElem?_eq_some_iff.mp hx
      rw [← h2]
      exact List.drop_eq_getElem_cons h1
    have hs := ih (s := completeTxn x none s) (by simpa using hb) (by simpa using ht)
      (by simpa [State.BusGood] using ha) (by simp; omega) (by simp; omega)
    rw [← hk, execFor_succ (exec_transacts hb ht ha hx), hd, runTxns_cons]
    rw [completeTxn_stepNo, planOf_fixed hf (completeTxn x none s) s,
      show i.busCount - (s.stepNo + 1) + 1 = k + 1 by omega] at hs
    exact hs

/-- A command with a fixed list of transactions, from its acceptance to its response. -/
theorem completes_fixed {i : Instr} (hf : fixedPlan i = true) {s : State} (hs : s.Idle)
    (ha : s.BusGood) (hl : legalOperands i = true) :
    Completes i s (finishOf i (runTxns (planOf s i) (accept i s))) := by
  have h := execFor_fixed hf (s := accept i s) rfl rfl ha (Nat.zero_le _)
  rw [Completes, execFor_succ (exec_accepts hs hl)]
  simpa [planOf_fixed hf (accept i s) s] using h

/-- A read-modify-write command from its acceptance to its response: the register is read, the changed
byte is written back. -/
theorem completes_rmw {i : Instr} {a : Byte} {change : Byte → Byte} {s : State}
    (hp : ∀ u : State, planOf u i = readRegister a ++ writeRegister a (change (u.tmp 0)))
    (hi : i.busCount = 3) (hin : a.toNat ≤ regTop) (hs : s.Idle) (ha : s.BusGood)
    (hl : legalOperands i = true) :
    Completes i s (finishOf i (completeTxn (.write a [change (s.regByte a.toNat)]) none
      (runTxns (readRegister a) (accept i s)))) := by
  obtain ⟨h1, -⟩ := runTxns_readRegister hin (accept i s)
  have e1 : exec i (accept i s) = .next (completeTxn (.write a []) none (accept i s)) :=
    exec_transacts rfl rfl ha (by rw [hp]; rfl)
  have e2 : exec i (completeTxn (.write a []) none (accept i s)) =
      .next (runTxns (readRegister a) (accept i s)) :=
    exec_transacts (s := completeTxn (.write a []) none (accept i s)) (x := .read) (by simp) (by simp)
      (by simpa [State.BusGood] using ha) (by rw [hp]; simp [readRegister])
  have ht : (runTxns (readRegister a) (accept i s)).tmp 0 = s.regByte a.toNat := by
    simp [State.tmp, h1, State.regByte]
  have e3 : exec i (runTxns (readRegister a) (accept i s)) =
      .next (completeTxn (.write a [change (s.regByte a.toNat)]) none
        (runTxns (readRegister a) (accept i s))) :=
    exec_transacts (by simp) (by simp) (by simpa [State.BusGood] using ha)
      (by rw [hp, ht]; simp [readRegister, writeRegister])
  have e4 : exec i (completeTxn (.write a [change (s.regByte a.toNat)]) none
      (runTxns (readRegister a) (accept i s))) = .next (finishOf i _) :=
    exec_responds (by simp) (by rw [hi]; simp [readRegister])
  rw [Completes, hi, execFor_succ (exec_accepts hs hl), execFor_succ e1, execFor_succ e2,
    execFor_succ e3, execFor_succ e4]
  rfl

/-- A block write that stays in the map: where its bytes go. -/
theorem busWrite_regByte {a : Byte} {data : List Byte} {s : State}
    (h : a.toNat + data.length ≤ 0x13) (c : Nat) :
    ((c < a.toNat ∨ a.toNat + data.length ≤ c) → (busWrite a data s).regByte c = s.regByte c) ∧
    (∀ j b, data[j]? = some b → keepsWrites s (a.toNat + j) → c = a.toNat + j →
      (busWrite a data s).regByte c = b) := by
  have main : ∀ (data : List Byte) (u : State), (u.ap.toNat + data.length ≤ 0x13) →
      u.cfg = s.cfg →
      ((c < u.ap.toNat ∨ u.ap.toNat + data.length ≤ c) →
        (data.foldl storeByte u).regByte c = u.regByte c) ∧
      (∀ j b, data[j]? = some b → keepsWrites s (u.ap.toNat + j) → c = u.ap.toNat + j →
        (data.foldl storeByte u).regByte c = b) := by
    intro data
    induction data with
    | nil => intro u _ _; simp
    | cons v vs ih =>
      intro u hl hc
      simp only [List.length_cons] at hl
      have hin : inMap u.ap = true := decide_eq_true (by simp only [regTop]; omega)
      simp only [List.foldl_cons, List.length_cons]
      cases vs with
      | nil =>
        refine ⟨fun hh => storeByte_other (by simp only [List.length_nil] at hh; omega) (.inl hin), ?_⟩
        intro j b hj hk hcj
        cases j with
        | zero =>
          obtain rfl : v = b := by simpa using hj
          subst hcj
          exact storeByte_same hin ((keepsWrites_congr hc _).2 hk)
        | succ j => simp at hj
      | cons v' vs =>
        have hap : (storeByte u v).ap.toNat = u.ap.toNat + 1 := by
          simp only [List.length_cons] at hl
          rw [storeByte_ap v (by simp only [regTop]; omega)]
          rw [BitVec.toNat_add]
          simp
          omega
        obtain ⟨h1, h2⟩ := ih (storeByte u v) (by rw [hap]; omega) (by simp [hc])
        rw [hap] at h1 h2
        refine ⟨fun hh => ?_, fun j b hj hk hcj => ?_⟩
        · rw [h1 (by omega)]
          exact storeByte_other (by omega) (.inl hin)
        · cases j with
          | zero =>
            obtain rfl : v = b := by simpa using hj
            subst hcj
            rw [h1 (by omega)]
            exact storeByte_same hin ((keepsWrites_congr hc _).2 hk)
          | succ j =>
            exact h2 j b (by simpa using hj)
              (by rwa [show u.ap.toNat + 1 + j = u.ap.toNat + (j + 1) by omega]) (by omega)
  exact main data { s with ap := a } h rfl

/-- A block write that stays in the map and covers the status register of a real chip: the alarm flags
after it are those that were set and are written as 1. -/
theorem busWrite_flags {a b : Byte} {data : List Byte} {s : State} {j : Nat}
    (hd : s.cfg.device = .real) (h : a.toNat + data.length ≤ 0x13) (hj : data[j]? = some b)
    (ha : a.toNat + j = 0x0F) :
    (busWrite a data s).regByte 0x0F &&& 0x03 = s.regByte 0x0F &&& b &&& 0x03 := by
  have main : ∀ (data : List Byte) (u : State) (j : Nat), u.cfg.device = .real →
      u.ap.toNat + data.length ≤ 0x13 → data[j]? = some b → u.ap.toNat + j = 0x0F →
      (data.foldl storeByte u).regByte 0x0F &&& 0x03 = u.regByte 0x0F &&& b &&& 0x03 := by
    intro data
    induction data with
    | nil => intro u j _ _ hj; simp at hj
    | cons v vs ih =>
      intro u j hd hl hj ha
      simp only [List.length_cons] at hl
      have hap : (storeByte u v).ap = u.ap + 1 := storeByte_ap v (by simp only [regTop]; omega)
      have hapn : (storeByte u v).ap.toNat = u.ap.toNat + 1 := by
        rw [hap, BitVec.toNat_add]
        simp
        omega
      rw [List.foldl_cons]
      cases j with
      | zero =>
        obtain rfl : v = b := by simpa using hj
        have rest : (vs.foldl storeByte (storeByte u v)).regByte 0x0F =
            (storeByte u v).regByte 0x0F :=
          (busWrite_regByte (a := (storeByte u v).ap) (data := vs) (s := storeByte u v)
            (by omega) 0x0F).1 (.inl (by omega))
        rw [rest]
        exact storeByte_flags hd (BitVec.eq_of_toNat_eq ha)
      | succ j =>
        rw [ih (storeByte u v) j (by simpa using hd) (by omega) (by simpa using hj) (by omega),
          storeByte_other (by omega) (.inl (decide_eq_true (by simp only [regTop]; omega)))]
  exact main data { s with ap := a } j hd h hj ha

end Sys2Proof.Machine
end

