-- ==== Sys2Proof/Laws/Values.lean ====
section
/-! SUPPORT. The arithmetic of the fields: clamp, codec, field decoding, calendar. -/

namespace Sys2Proof.Machine

theorem clamp_le {v lo hi : Nat} (h : lo ≤ hi) : clamp v lo hi ≤ hi := by
  unfold clamp; split_ifs <;> omega

theorem le_clamp {v lo hi : Nat} (h : lo ≤ hi) : lo ≤ clamp v lo hi := by
  unfold clamp; split_ifs <;> omega

theorem clamp_inside {v lo hi : Nat} (h1 : lo ≤ v) (h2 : v ≤ hi) : clamp v lo hi = v := by
  unfold clamp; split_ifs <;> omega

/-- Masking with `0xFF` changes nothing. -/
@[simp] theorem fieldValue_unmasked (b : Byte) (lo hi : Nat) :
    fieldValue b 0xFF lo hi = clamp (bcdToDecimal b) lo hi := by
  have h : b &&& 0xFF = b := by
    rw [show (0xFF : Byte) = BitVec.allOnes 8 from rfl, BitVec.and_allOnes]
  rw [fieldValue, h]

/-! The rows of the accessor table, spelled out. -/

theorem yearValue_eq (b : Byte) : yearValue b = 2000 + clamp (bcdToDecimal b) 0 99 := by
  rw [yearValue, fieldValue_unmasked, yearBase]
theorem monthValue_eq (m : MonthMask) (b : Byte) :
    monthValue m b = clamp (bcdToDecimal (b &&& monthMaskByte m)) 1 12 := rfl
theorem dateValue_eq (b : Byte) : dateValue b = clamp (bcdToDecimal b) 1 31 := by
  rw [dateValue, fieldValue_unmasked]
theorem weekdayValue_eq (b : Byte) : weekdayValue b = clamp (bcdToDecimal b) 1 7 := by
  rw [weekdayValue, fieldValue_unmasked]
theorem dayNameIndex_eq (b : Byte) : dayNameIndex b = clamp (bcdToDecimal b) 1 8 := by
  rw [dayNameIndex, fieldValue_unmasked]
theorem hourValue_eq (b : Byte) : hourValue b = clamp (bcdToDecimal b) 0 23 := by
  rw [hourValue, fieldValue_unmasked]
theorem minuteValue_eq (b : Byte) : minuteValue b = clamp (bcdToDecimal b) 0 59 := by
  rw [minuteValue, fieldValue_unmasked]
theorem secondValue_eq (b : Byte) : secondValue b = clamp (bcdToDecimal b) 0 59 := by
  rw [secondValue, fieldValue_unmasked]

/-- A number of two digits is encoded without loss. -/
theorem bcdToDecimal_bcdByte {d : Nat} (h : d ≤ 99) : bcdToDecimal (bcdByte d) = d := by
  simp only [bcdToDecimal, bcdByte, decimalToBcd, BitVec.toNat_ofNat]
  omega

theorem bcdToDecimal_le (b : Byte) : bcdToDecimal b ≤ 165 := by
  have := b.isLt
  simp only [bcdToDecimal]
  omega

/-! The decimal numeral. -/

/-- Fuel above the number of digits changes nothing. -/
theorem decimalDigits_fuel {f g n : Nat} (hf : n < f) (hg : n < g) :
    decimalDigits f n = decimalDigits g n := by
  induction f generalizing g n with
  | zero => omega
  | succ f ih =>
    obtain ⟨g, rfl⟩ : ∃ k, g = k + 1 := ⟨g - 1, by omega⟩
    simp only [decimalDigits]
    split_ifs
    · rfl
    · rw [ih (g := g) (by omega) (by omega)]

theorem dec_digit {n : Nat} (h : n < 10) : dec n = [digit n] := by
  simp [dec, decimalDigits, h]

/-- The last digit of a longer numeral. -/
theorem dec_append {n : Nat} (h : 10 ≤ n) : dec n = dec (n / 10) ++ [digit (n % 10)] := by
  rw [dec, decimalDigits, if_neg (by omega), dec,
    decimalDigits_fuel (g := n / 10 + 1) (by omega) (by omega)]

theorem dec_twoDigits {n : Nat} (h1 : 10 ≤ n) (h2 : n ≤ 99) : dec n = twoDigits n := by
  rw [dec_append h1, dec_digit (by omega)]
  rfl

/-- The numeral of a date or a month. -/
theorem dec_short {n : Nat} (h : n ≤ 99) : dec n = if n < 10 then [digit n] else twoDigits n := by
  split_ifs with h1
  · exact dec_digit h1
  · exact dec_twoDigits (by omega) h

/-- The four digits of a year of the century. -/
theorem dec_year {v : Nat} (h : v ≤ 99) : dec (2000 + v) = [0x32, 0x30] ++ twoDigits v := by
  rw [dec_append (by omega), dec_append (by omega), dec_twoDigits (by omega) (by omega),
    show (2000 + v) / 10 / 10 = 20 by omega, show (2000 + v) / 10 % 10 = v / 10 by omega,
    show (2000 + v) % 10 = v % 10 by omega]
  rfl

/-- The seconds of whole years are counted by days: 365 a year and one for each leap year
(44_timestamp.md R243), as long as no century year but 2000 is passed. -/
theorem yearsSeconds_eq {n : Nat} (h : n ≤ 130) : yearsSeconds n = 86400 * (365 * n + (n + 1) / 4) := by
  induction n with
  | zero => rfl
  | succ n ih =>
    have hl : isLeap (epochYear + n) = decide ((n + 2) % 4 = 0) := by
      have e : (isLeap (epochYear + n) = true) ↔ (n + 2) % 4 = 0 := by
        simp only [isLeap, epochYear, Bool.and_eq_true, beq_iff_eq, Bool.or_eq_true, bne_iff_ne]
        omega
      by_cases hc : (n + 2) % 4 = 0
      · simp [hc, e.2 hc]
      · simp only [hc, decide_false]
        simpa using mt e.1 hc
    rw [yearsSeconds, ih (by omega), yearSeconds, hl]
    by_cases hc : (n + 2) % 4 = 0
    · simp [hc]; omega
    · simp [hc]; omega

theorem monthsSeconds_mono (y : Nat) {m n : Nat} (h : m ≤ n) :
    monthsSeconds y m ≤ monthsSeconds y n := by
  induction h with
  | refl => exact Nat.le_refl _
  | step _ ih => exact Nat.le_trans ih (Nat.le_add_right _ _)

end Sys2Proof.Machine
end

