-- ==== Sys2Proof/Tests/Slice0.lean ====
section
/-! SUPPORT. The model's own tests: ill-formed commands refused, words decoded, single steps against the vectors of 95_test_vectors.md, and a witness for the hypotheses of every statement. -/

open Sys2Proof Sys2Proof.Machine

namespace Sys2Proof.Tests

/-! ## Ill-formed commands (30_encoding.md R103, R120): one operand too wide for its field each -/

theorem test_illFormed_leap_year : Instr.WellFormed (.leap 4096) = false := by decide
theorem test_illFormed_epoch_year : Instr.WellFormed (.epoch 4096 1 1 0 0 0) = false := by decide
theorem test_illFormed_epoch_month : Instr.WellFormed (.epoch 2024 16 1 0 0 0) = false := by decide
theorem test_illFormed_epoch_date : Instr.WellFormed (.epoch 2024 1 32 0 0 0) = false := by decide
theorem test_illFormed_epoch_hour : Instr.WellFormed (.epoch 2024 1 1 32 0 0) = false := by decide
theorem test_illFormed_epoch_minute :
    Instr.WellFormed (.epoch 2024 1 1 0 64 0) = false := by decide
theorem test_illFormed_epoch_second :
    Instr.WellFormed (.epoch 2024 1 1 0 0 64) = false := by decide
theorem test_illFormed_setalm_date :
    Instr.WellFormed (.setalm .a1 .minute 32 1 0 0) = false := by decide
theorem test_illFormed_setalm_weekday :
    Instr.WellFormed (.setalm .a1 .minute 1 8 0 0) = false := by decide
theorem test_illFormed_setalm_hour :
    Instr.WellFormed (.setalm .a1 .minute 1 1 32 0) = false := by decide
theorem test_illFormed_setalm_minute :
    Instr.WellFormed (.setalm .a1 .minute 1 1 0 64) = false := by decide
theorem test_illFormed_setdt_year : Instr.WellFormed (.setdt 4096 1 1 1 0 0 0) = false := by decide
theorem test_illFormed_setdt_month :
    Instr.WellFormed (.setdt 2024 16 1 1 0 0 0) = false := by decide
theorem test_illFormed_setdt_date :
    Instr.WellFormed (.setdt 2024 1 32 1 0 0 0) = false := by decide
theorem test_illFormed_setdt_weekday :
    Instr.WellFormed (.setdt 2024 1 1 8 0 0 0) = false := by decide
theorem test_illFormed_setdt_hour :
    Instr.WellFormed (.setdt 2024 1 1 1 32 0 0) = false := by decide
theorem test_illFormed_setdt_minute :
    Instr.WellFormed (.setdt 2024 1 1 1 0 64 0) = false := by decide
theorem test_illFormed_setdt_second :
    Instr.WellFormed (.setdt 2024 1 1 1 0 0 64) = false := by decide
/-- A command can be written and still be refused by the engine (60_exceptions.md R342). -/
theorem test_wellFormed_not_legal :
    Instr.WellFormed (.setdt 4095 15 31 7 31 63 63) = true ∧ legalOperands (.setdt 4095 15 31 7 31 63 63) = false := by decide

/-! ## Decoding: a word of every constructor, written out from 30_encoding.md R103 and R110 (the words of
95_test_vectors.md) -/

theorem test_decode_rdreg : decode 0x010000000000000E = .ok (.rdreg 0x0E) := rfl
theorem test_decode_wrreg : decode 0x0200000000000780 = .ok (.wrreg 0x07 0x80) := rfl
theorem test_decode_bcd2dec : decode 0x100000000000009A = .ok (.bcd2dec 0x9A) := rfl
theorem test_decode_dec2bcd : decode 0x11000000000000FF = .ok (.dec2bcd 255) := rfl
theorem test_decode_year : decode 0x2000000000000000 = .ok (.year) := rfl
theorem test_decode_month : decode 0x2100000000000000 = .ok (.month) := rfl
theorem test_decode_date : decode 0x2200000000000000 = .ok (.date) := rfl
theorem test_decode_wday : decode 0x2300000000000000 = .ok (.wday) := rfl
theorem test_decode_dayname : decode 0x2400000000000000 = .ok (.dayname) := rfl
theorem test_decode_hour : decode 0x2500000000000000 = .ok (.hour) := rfl
theorem test_decode_min : decode 0x2600000000000000 = .ok (.min) := rfl
theorem test_decode_sec : decode 0x2700000000000000 = .ok (.sec) := rfl
theorem test_decode_rdstat : decode 0x2800000000000000 = .ok (.rdstat) := rfl
theorem test_decode_rdctl : decode 0x2900000000000000 = .ok (.rdctl) := rfl
theorem test_decode_temph : decode 0x2A00000000000000 = .ok (.temph) := rfl
theorem test_decode_templ : decode 0x2B00000000000000 = .ok (.templ) := rfl
theorem test_decode_timestr : decode 0x3000000000000000 = .ok (.timestr) := rfl
theorem test_decode_datestr : decode 0x3100000000000000 = .ok (.datestr) := rfl
theorem test_decode_unixts : decode 0x4000000000000000 = .ok (.unixts) := rfl
theorem test_decode_leap : decode 0x4100000000000FFF = .ok (.leap 4095) := rfl
theorem test_decode_epoch : decode 0x420000FCE5C17EFB = .ok (.epoch 2023 2 28 23 59 59) := rfl
theorem test_decode_setalm :
    decode 0x50000000003D635E = .ok (.setalm .a2 .weekdayHourMinute 21 4 13 30) := rfl
theorem test_decode_aie : decode 0x6000000000000101 = .ok (.aie .a2 true) := rfl
theorem test_decode_aclr : decode 0x7000000000000100 = .ok (.aclr .a2) := rfl
theorem test_decode_gint : decode 0x7100000000000001 = .ok (.gint true) := rfl
theorem test_decode_setdt : decode 0x800000FB98C775FB = .ok (.setdt 2012 12 12 3 23 23 59) := rfl
theorem test_decode_setalm_modes :
    [0x500000000003E35E, 0x50000000000BE35E, 0x500000000013E35E, 0x50000000001BE35E].map decode =
      [AlarmMode.minute, .hourMinute, .dateHourMinute, .weekdayHourMinute].map fun m =>
        .ok (.setalm .a1 m 15 4 13 30) := rfl
theorem test_decode_refuses_unknown : decode 0x9900000000000000 = .error .unknownOpcode := rfl
theorem test_decode_refuses_zero : decode 0x0000000000000000 = .error .unknownOpcode := rfl
theorem test_decode_refuses_epoch_weekday : decode 0x420000FD061A0000 = .error .reservedBit := rfl
theorem test_decode_refuses_setalm_bit22 : decode 0x500000000043E35E = .error .reservedBit := rfl
theorem test_decode_refuses_aie_bit1 : decode 0x6000000000000003 = .error .reservedBit := rfl
theorem test_decode_refuses_aie_bit9 : decode 0x6000000000000201 = .error .reservedBit := rfl
theorem test_decode_refuses_aclr_bit0 : decode 0x7000000000000001 = .error .reservedBit := rfl
theorem test_decode_refuses_gint_bit1 : decode 0x7100000000000003 = .error .reservedBit := rfl
theorem test_decode_refuses_setdt_bit41 : decode 0x8000020000000000 = .error .reservedBit := rfl
theorem test_decode_refuses_year_bit0 : decode 0x2000000000000001 = .error .reservedBit := rfl
theorem test_encode_setdt : encode (.setdt 2099 12 31 7 23 59 59) = 0x8000010679FF7EFB := by decide
theorem test_encode_setalm :
    encode (.setalm .a2 .dateHourMinute 31 7 23 59) = 0x500000000037FDFB := by decide
theorem test_decodeTableWord_short : decodeTableWord 56 0x2000000000000000 = none := rfl
/-- No row's fixed bits select another row (30_encoding.md R104). -/
theorem test_rows_apart : opcodeMap.Pairwise fun r q => r.fixed &&& q.mask ≠ q.fixed := by decide

/-! ## Single steps -/

/-- A machine on the bench: the reference device, a static chip, seven day names, every register `0`
but those listed. -/
def bench (mem : Memory) : State :=
  { State.reset with
    mem := mem
    ap := 0
    cfg := { State.reset.cfg with
      dayNames := #v[[0x61], [0x62], [0x63], [0x64], [0x65], [0x66], [0x67]]
      chipEnv := .static
      device := .reference } }

/-- The bench with a command in flight: its word, the transactions done, the bytes read. -/
def flight (w : Word64) (n : Nat) (ts : List Byte) (mem : Memory := []) : State :=
  { bench mem with busy := true, cmd := w, stepNo := n, temps := ts }

/-- The bench with a word presented. -/
def shown (w : Word64) (mem : Memory := []) : State := { bench mem with commands := [w] }

/-- The bench with a chip of which nothing is assumed. -/
def realFlight (w : Word64) (n : Nat) (ts : List Byte) : State :=
  { flight w n ts with cfg := State.reset.cfg }

/-- A property of the state after one step. -/
def after (s : State) (p : State → Bool) : Bool :=
  match step s with
  | .next t => p t
  | .fault _ => false
  | .refused _ => false

/-- The step delivers the response `OK v` with this text. -/
def answers (s : State) (v : Nat) (txt : Text := []) : Bool :=
  after s fun t => t.responses == [⟨.ok, 0, BitVec.ofNat 32 v, txt⟩] && !t.busy && t.cix == 1

/-- The step delivers a fault response. -/
def faults (s : State) (f : Status) (info : Byte) : Bool :=
  after s fun t => t.responses == [⟨f, info, 0, []⟩] && !t.busy && t.cix == 1 && t.trace == []

/-- The step issues this write, and it completes. -/
def writes (s : State) (a : Byte) (data : List Byte) : Bool :=
  after s fun t =>
    t.trace == [⟨0x68, .write a data, .done none⟩] && t.responses == [] &&
      t.stepNo == s.stepNo + 1

/-- The step issues a read, and it completes with this byte. -/
def reads (s : State) (b : Byte) : Bool :=
  after s fun t => t.trace == [⟨0x68, .read, .done (some b)⟩] && t.temps == s.temps ++ [b]

theorem test_accept :
    after (shown 0x8000010679FF7EFB) (fun t => t.busy && t.cmd == 0x8000010679FF7EFB && t.stepNo == 0 && t.cix == 0) = true := by decide
theorem test_illegal_opcode :
    faults (shown 0x9900000000000000) .illegalCommand 0 = true := by decide
theorem test_illegal_reserved :
    faults (shown 0x420000FD061A0000) .illegalCommand 1 = true := by decide
theorem test_bad_epoch : faults (shown 0x420000F9FA018F3C) .invalidArgument 1 = true := by decide
theorem test_bad_setalm : faults (shown 0x50000000002807FF) .invalidArgument 3 = true := by decide
theorem test_year_address : writes (flight 0x2000000000000000 0 []) 0x06 [] = true := by decide
theorem test_year_answer :
    answers (flight 0x2000000000000000 2 [0x24]) 2024 = true ∧ answers (flight 0x2000000000000000 2 [0x9A]) 2099 = true := by decide
theorem test_month_address : writes (flight 0x2100000000000000 0 []) 0x05 [] = true := by decide
theorem test_month_answer :
    answers (flight 0x2100000000000000 2 [0x12]) 12 = true ∧ answers (flight 0x2100000000000000 2 [0x83]) 12 = true := by decide
theorem test_date_address : writes (flight 0x2200000000000000 0 []) 0x04 [] = true := by decide
theorem test_date_answer :
    answers (flight 0x2200000000000000 2 [0x31]) 31 = true ∧ answers (flight 0x2200000000000000 2 [0x00]) 1 = true := by decide
theorem test_wday_address : writes (flight 0x2300000000000000 0 []) 0x03 [] = true := by decide
theorem test_wday_answer :
    answers (flight 0x2300000000000000 2 [0x07]) 7 = true ∧ answers (flight 0x2300000000000000 2 [0x08]) 7 = true := by decide
theorem test_hour_address : writes (flight 0x2500000000000000 0 []) 0x02 [] = true := by decide
theorem test_hour_answer :
    answers (flight 0x2500000000000000 2 [0x1A]) 20 = true ∧ answers (flight 0x2500000000000000 2 [0x47]) 23 = true := by decide
theorem test_min_address : writes (flight 0x2600000000000000 0 []) 0x01 [] = true := by decide
theorem test_min_answer :
    answers (flight 0x2600000000000000 2 [0x59]) 59 = true ∧ answers (flight 0x2600000000000000 2 [0x5A]) 59 = true := by decide
theorem test_sec_address : writes (flight 0x2700000000000000 0 []) 0x00 [] = true := by decide
theorem test_sec_answer :
    answers (flight 0x2700000000000000 2 [0x59]) 59 = true ∧ answers (flight 0x2700000000000000 2 [0x80]) 59 = true := by decide
theorem test_rdstat_address : writes (flight 0x2800000000000000 0 []) 0x0F [] = true := by decide
theorem test_rdstat_answer :
    answers (flight 0x2800000000000000 2 [0x8B]) 139 = true ∧ answers (flight 0x2800000000000000 2 [0xFF]) 255 = true := by decide
theorem test_rdctl_address : writes (flight 0x2900000000000000 0 []) 0x0E [] = true := by decide
theorem test_rdctl_answer :
    answers (flight 0x2900000000000000 2 [0x1C]) 28 = true ∧ answers (flight 0x2900000000000000 2 [0x1F]) 31 = true := by decide
theorem test_temph_address : writes (flight 0x2A00000000000000 0 []) 0x11 [] = true := by decide
theorem test_temph_answer :
    answers (flight 0x2A00000000000000 2 [0x19]) 25 = true ∧ answers (flight 0x2A00000000000000 2 [0xFF]) 255 = true := by decide
theorem test_templ_address : writes (flight 0x2B00000000000000 0 []) 0x12 [] = true := by decide
theorem test_templ_answer :
    answers (flight 0x2B00000000000000 2 [0x40]) 64 = true ∧ answers (flight 0x2B00000000000000 2 [0xC0]) 192 = true := by decide
theorem test_month_mask :
    answers { flight 0x2100000000000000 2 [0x83] with cfg := { (bench []).cfg with monthMask := .stripCentury } } 3 = true := by decide
theorem test_dayname_address : writes (flight 0x2400000000000000 0 []) 0x03 [] = true := by decide
theorem test_dayname_answer :
    answers (flight 0x2400000000000000 2 [0x07]) 7 [0x67] = true ∧ answers (flight 0x2400000000000000 2 [0x00]) 1 [0x61] = true := by decide
theorem test_dayname_eight :
    (match step (flight 0x2400000000000000 2 [0x08]) with
      | .next t => t.responses.map fun r => (r.status, r.value)
      | .fault _ => []
      | .refused _ => []) = [(.ok, 8)] := rfl
theorem test_rdreg_read :
    reads { flight 0x010000000000000E 1 [] [(0x0E, 0x1C)] with ap := 0x0E } 0x1C = true ∧ reads { flight 0x0100000000000013 1 [] with ap := 0x13 } 0xFF = true := by decide
theorem test_rdreg_answer :
    writes (flight 0x01000000000000FF 0 []) 0xFF [] = true ∧ answers (flight 0x010000000000000E 2 [0x1C]) 28 = true := by decide
theorem test_wrreg :
    writes (flight 0x0200000000000780 0 []) 0x07 [0x80] = true ∧ answers (flight 0x0200000000000780 1 []) 0 = true := by decide
theorem test_wrreg_stored :
    after (flight 0x0200000000000E04 0 [] [(0x0D, 1), (0x0E, 2)]) (fun t => t.mem == [(0x0D, 1), (0x0E, 4)] && t.ap == 0x0F) = true := by decide
theorem test_bcd2dec :
    answers (flight 0x100000000000009A 0 []) 100 = true ∧ answers (flight 0x10000000000000FF 0 []) 165 = true := by decide
theorem test_dec2bcd :
    answers (flight 0x110000000000001E 0 []) 48 = true ∧ answers (flight 0x11000000000000FF 0 []) 405 = true := by decide
theorem test_timestr :
    answers (flight 0x3000000000000000 6 [0x09, 0x05, 0x07]) 0 [0x30, 0x39, 0x3A, 0x30, 0x35, 0x3A, 0x30, 0x37] = true ∧ answers (flight 0x3000000000000000 6 [0x47, 0x60, 0x0A]) 0 [0x32, 0x33, 0x3A, 0x35, 0x39, 0x3A, 0x31, 0x30] = true := by decide
/-- R221: W[02] R W[01] R W[00] R. -/
theorem test_timestr_reads :
    writes (flight 0x3000000000000000 0 []) 0x02 [] = true ∧ writes (flight 0x3000000000000000 2 [1]) 0x01 [] = true ∧ writes (flight 0x3000000000000000 4 [1, 2]) 0x00 [] = true ∧ reads { flight 0x3000000000000000 3 [1] [(1, 0x59)] with ap := 1 } 0x59 = true := by decide
theorem test_datestr :
    answers (flight 0x3100000000000000 6 [0x15, 0x03, 0x24]) 0 [0x31, 0x35, 0x2E, 0x33, 0x2E, 0x32, 0x30, 0x32, 0x34] = true ∧ answers (flight 0x3100000000000000 6 [0x09, 0x83, 0x00]) 0 [0x39, 0x2E, 0x33, 0x2E, 0x32, 0x30, 0x30, 0x30] = true := ⟨rfl, rfl⟩
/-- R222: W[04] R W[05] R W[06] R. -/
theorem test_datestr_reads :
    writes (flight 0x3100000000000000 0 []) 0x04 [] = true ∧ writes (flight 0x3100000000000000 2 [1]) 0x05 [] = true ∧ writes (flight 0x3100000000000000 4 [1, 2]) 0x06 [] = true ∧ reads { flight 0x3100000000000000 5 [1, 2] [(6, 0x99)] with ap := 6 } 0x99 = true := by decide
theorem test_unixts :
    answers (flight 0x4000000000000000 12 [0x24, 0x03, 0x01, 0, 0, 0]) 1709251200 = true ∧ answers (flight 0x4000000000000000 12 [0xFF, 0xFF, 0xFF, 0xFF, 0xFF, 0xFF]) 4102444799 = true := by decide +kernel
/-- R245: W[06] R W[05] R W[04] R W[02] R W[01] R W[00] R. -/
theorem test_unixts_reads :
    ([0, 1, 2, 3, 4, 5].zip [0x06, 0x05, 0x04, 0x02, 0x01, 0x00]).all (fun p => writes (flight 0x4000000000000000 (2 * p.1) (List.replicate p.1 1)) p.2 []) = true ∧ reads { flight 0x4000000000000000 11 [1, 2, 3, 4, 5] [(0, 0x58)] with ap := 0 } 0x58 = true := by decide
theorem test_leap :
    answers (flight 0x4100000000000834 0 []) 0 = true ∧ answers (flight 0x4100000000000960 0 []) 1 = true := by decide
theorem test_epoch : answers (flight 0x420000FD05D0C000 0 []) 1709208000 = true := by decide
theorem test_epoch_past : answers (flight 0x420000FCE5F00000 0 []) 1677801600 = true := by decide
theorem test_setalm_a1 :
    writes (flight 0x500000000003E35E 0 []) 0x08 [0x30, 0x93, 0x95] = true ∧ writes (flight 0x50000000001FFDFB 0 []) 0x08 [0x59, 0x23, 0x47] = true := by decide
theorem test_setalm_a2 :
    writes (flight 0x50000000002BE35E 0 []) 0x0B [0x30, 0x13, 0x95] = true ∧ writes (flight 0x500000000037FDFB 0 []) 0x0B [0x59, 0x23, 0x31] = true := by decide
theorem test_aie :
    writes (flight 0x6000000000000101 2 [0x1C]) 0x0E [0x1E] = true ∧ writes (flight 0x6000000000000000 2 [0xFF]) 0x0E [0xFE] = true := by decide
theorem test_aie_answer :
    writes (flight 0x6000000000000101 0 []) 0x0E [] = true ∧ answers (flight 0x6000000000000101 3 [0x1C]) 0 = true := by decide
theorem test_aclr :
    writes (flight 0x7000000000000000 2 [0x8B]) 0x0F [0x8A] = true ∧ writes (flight 0x7000000000000100 2 [0x8B]) 0x0F [0x89] = true := by decide
theorem test_aclr_answer :
    writes (flight 0x7000000000000000 0 []) 0x0F [] = true ∧ answers (flight 0x7000000000000000 3 [0x8B]) 0 = true := by decide
theorem test_gint :
    writes (flight 0x7100000000000001 2 [0x18]) 0x0E [0x1C] = true ∧ writes (flight 0x7100000000000000 2 [0xFF]) 0x0E [0xFB] = true := by decide
theorem test_gint_answer :
    writes (flight 0x7100000000000001 0 []) 0x0E [] = true ∧ answers (flight 0x7100000000000001 3 [0x18]) 0 = true := by decide
theorem test_setdt :
    writes (flight 0x800000FB98C775FB 0 []) 0x00 [0x59, 0x23, 0x23, 0x03, 0x12, 0x12, 0x12] = true ∧ answers (flight 0x800000FB98C775FB 1 []) 0 = true := by decide
theorem test_setdt_stored :
    after (flight 0x8000010679FF7EFB 0 [] [(0x07, 9)]) (fun t => t.mem == [(0, 0x59), (1, 0x59), (2, 0x23), (3, 0x07), (4, 0x31), (5, 0x12), (6, 0x99), (7, 9)]) = true := by decide
/-- V4: TIMESTR, transaction 3 fails. -/
theorem test_busError :
    after { flight 0x3000000000000000 3 [0x13] with answers := [.error []] } (fun t => t.responses == [⟨.busError, 3, 0, []⟩] && !t.busy && t.trace == [⟨0x68, .read, .failed⟩]) = true := by decide
/-- A failed block write may have stored some of its bytes (20_memory.md R73). -/
theorem test_busError_write :
    after { flight 0x8000010679FF7EFB 0 [] [(4, 1)] with answers := [.error [0x59, 0x59]] } (fun t => t.mem == [(0, 0x59), (1, 0x59), (4, 1)]) = true := by decide
theorem test_wrongByte :
    after { flight 0x2500000000000000 1 [] [(2, 0x11)] with ap := 2, answers := [.okWith 0x47] } (fun t => t.temps == [0x47] && t.mem == [(2, 0x11)]) = true := by decide
theorem test_hang :
    after { flight 0x2500000000000000 0 [] with answers := [.never []] } (fun t => t.transferring && t.busy && t.responses == [] && t.stepNo == 0) = true := by decide
/-- R53: all 19 registers and the pointer, on a chip that never ticks; the engine is where it was. -/
theorem test_powerUp :
    after { flight 0x2500000000000000 1 [] [(0x0E, 7)] with agenda := [.powerUp (.replicate 19 0xA5) 3] } (fun t => t.busy && t.stepNo == 1 && t.ap == 3 && Memory.get? t.mem 0x0E == some 0xA5 && t.mem.length == 19) = true := by decide
theorem test_chip_ticks :
    after { bench [(0x0E, 7)] with cfg := State.reset.cfg, agenda := [.chip [(0x00, 1), (0x0E, 1), (0x0F, 3)]] } (fun t => t.mem == [(0x00, 1), (0x0E, 7), (0x0F, 3)] && t.agenda == []) = true := by decide

/-! ## The assembler (30_encoding.md R120, R121) -/

theorem test_asm_setalm :
    assembleLine "SETALM A2, WEEKDAYHOURMINUTE, 15, 4, 13, 30 ; S7".toList = .command (.setalm .a2 .weekdayHourMinute 15 4 13 30) := by decide
theorem test_asm_hex :
    assembleLine "WRREG 0x0E, 0x04".toList = .command (.wrreg 0x0E 0x04) := by decide
theorem test_asm_hex_letters :
    assembleLine "RDREG 0xfE".toList = .command (.rdreg 0xFE) ∧ assembleLine "RDREG 1E".toList = .error ∧ assembleLine "RDREG 0xG".toList = .error := by decide
theorem test_asm_too_wide :
    assembleLine "SETDT 5000, 1, 1, 1, 0, 0, 0".toList = .error ∧ assembleLine "RDREG 0x100".toList = .error := by decide
theorem test_asm_program :
    assemble ["AION A2".toList, "; a comment".toList, "UNIXTS".toList] = some [0x6000000000000101, 0x4000000000000000] := by decide

/-! ## Witnesses: for every statement with hypotheses, concrete operands and states that meet them -/

theorem witness_DecodeAfterEncode :
    Instr.WellFormed (.setdt 4095 15 31 7 31 63 63) = true ∧ Instr.WellFormed (.leap 0) = true := by decide
theorem witness_EncodeAfterDecode :
    decode 0x80000FFFFFFFFFFF = .error .reservedBit ∧ decode 0x800001FFFFFFFFFF = .ok (.setdt 4095 15 31 7 31 63 63) := ⟨rfl, rfl⟩
theorem witness_DecoderSelectsTheTableRow :
    ⟨"EPOCH", 0x4200000000000000, 0xFFFFFE00000E0000⟩ ∈ opcodeMap ∧ OpcodeRow.selects ⟨"EPOCH", 0x4200000000000000, 0xFFFFFE00000E0000⟩ 0x420000FD06100000 ∧ ¬ OpcodeRow.selects ⟨"EPOCH", 0x4200000000000000, 0xFFFFFE00000E0000⟩ 0x420000FD061A0000 := ⟨by decide, by unfold OpcodeRow.selects; decide, by unfold OpcodeRow.selects; decide⟩
theorem witness_StepRunsTheCommand :
    (shown (encode .year)).currentWord = some (encode .year) ∧ (shown (encode .year)).agenda = [] := ⟨rfl, rfl⟩
theorem witness_StepRunsTheCommand_inFlight :
    State.currentWord { flight (encode .year) 1 [] with agenda := [.engine] } = some (encode .year) := rfl
theorem witness_AcceptTakesTheCommand :
    (bench []).Idle ∧ legalOperands (.setdt 2000 1 1 1 0 0 0) = true ∧ legalOperands (.setdt 2099 12 31 7 23 59 59) = true := ⟨rfl, rfl, rfl⟩
theorem witness_IllegalCommandIsReported_opcode :
    (shown 0x9900000000000000).Idle ∧ (shown 0x9900000000000000).agenda = [] ∧ (shown 0x9900000000000000).commands[0]? = some 0x9900000000000000 ∧ ∀ r ∈ opcodeMap, (0x9900000000000000 : Word64) >>> 56 ≠ r.fixed >>> 56 := ⟨rfl, rfl, rfl, by decide⟩
theorem witness_IllegalCommandIsReported_reserved :
    ⟨"AIE", 0x6000000000000000, 0xFFFFFFFFFFFFFEFE⟩ ∈ opcodeMap ∧ (0x6000000000000003 : Word64) >>> 56 = 0x6000000000000000 >>> 56 ∧ ¬ OpcodeRow.selects ⟨"AIE", 0x6000000000000000, 0xFFFFFFFFFFFFFEFE⟩ 0x6000000000000003 := ⟨by decide, by decide, by unfold OpcodeRow.selects; decide⟩
theorem witness_IllegalCommandIsReported_others :
    exec .year (flight (encode .year) 2 [0]) = .next ((flight (encode .year) 2 [0]).answered (okResponse 2000 [])) := rfl
theorem witness_FirstBadOperandIsReported_setdt :
    [Instr.setdt 1999 0 0 0 24 60 60, .setdt 2100 1 1 1 0 0 0, .setdt 2000 0 1 1 0 0 0, .setdt 2099 13 1 1 0 0 0, .setdt 2000 1 0 1 0 0 0, .setdt 2000 12 32 1 0 0 0, .setdt 2000 1 1 0 0 0 0, .setdt 2000 1 31 8 0 0 0, .setdt 2000 1 1 7 24 0 0, .setdt 2000 1 1 1 23 60 0, .setdt 2000 1 1 1 0 59 60].map badOperand = [1, 1, 2, 2, 3, 3, 4, 4, 5, 6, 7].map some := by decide
theorem witness_FirstBadOperandIsReported_setalm :
    [Instr.setalm .a1 .minute 0 0 24 60, .setalm .a2 .minute 32 1 0 0, .setalm .a1 .hourMinute 1 0 0 0, .setalm .a1 .minute 31 8 0 0, .setalm .a1 .minute 1 7 24 0, .setalm .a1 .minute 1 1 23 60].map badOperand = [3, 3, 4, 4, 5, 6].map some := by decide
theorem witness_FirstBadOperandIsReported_epoch :
    [Instr.epoch 1999 0 0 24 60 60, .epoch 2100 1 1 0 0 0, .epoch 2000 0 1 0 0 0, .epoch 2099 13 1 0 0 0, .epoch 2000 1 0 0 0 0, .epoch 2000 12 32 0 0 0, .epoch 2000 1 31 24 0 0, .epoch 2000 1 1 23 60 0, .epoch 2000 1 1 0 59 60].map badOperand = [1, 1, 2, 2, 3, 3, 4, 5, 6].map some := by decide
theorem witness_FirstBadOperandIsReported_answer :
    exec (.epoch 1999 1 1 0 0 0) (bench []) = .next ((bench []).answered (faultResponse .invalidArgument 1)) ∧ (bench []).Idle := ⟨rfl, rfl⟩
theorem witness_IdleEngineWaits :
    (bench []).RunEnded ∧ (bench []).agenda = [] := ⟨⟨rfl, Nat.le_refl 0⟩, rfl⟩
theorem witness_BusErrorEndsTheCommand :
    let s := { flight (encode .unixts) 11 [1, 1, 1, 1, 1] with answers := [.error []] }
    s.busy = true ∧ s.transferring = false ∧ s.stepNo < Instr.busCount .unixts ∧ s.answers = [.error []] := ⟨rfl, rfl, by decide, rfl⟩
theorem witness_HangIsForEver :
    State.Hung { flight (encode .year) 1 [] with transferring := true } ∧ ∀ m ∈ (flight (encode .year) 1 []).agenda, m ≠ Move.reset := ⟨⟨rfl, rfl, .year, rfl, by decide⟩, by intro m h; cases h⟩
theorem witness_HangIsForEver_begins :
    let s := { flight (encode .year) 0 [] with answers := [.never []] }
    s.busy = true ∧ s.transferring = false ∧ s.stepNo < Instr.busCount .year ∧ decode s.cmd = .ok .year ∧ s.answers = [.never []] := ⟨rfl, rfl, by decide, rfl, rfl⟩
theorem witness_HangIsForEver_reset :
    State.Hung { flight (encode .year) 1 [] with transferring := true, agenda := [.reset] } := ⟨rfl, rfl, .year, rfl, by decide⟩
theorem witness_ResetDropsTheCommand :
    let s := { flight (encode .year) 1 [] with agenda := [.reset] }
    s.busy = true ∧ s.agenda = [.reset] := ⟨rfl, rfl⟩
theorem witness_OnlyAddressedRegistersChange :
    staysInMap (bench []) (.wrreg 0x12 1) ∧ staysInMap (bench []) (.wrreg 0x13 1) ∧ staysInMap State.reset (.wrreg 0x12 1) ∧ 0x12 ∉ writtenRegisters (.wrreg 0x13 1) := ⟨.inl (by decide), .inr rfl, .inl (by decide), by decide⟩
theorem witness_OnlyAddressedRegistersChange_step :
    ∃ t, exec (.wrreg 0x13 1) (flight (encode (.wrreg 0x13 1)) 0 []) = .next t := exec_next _ _
theorem witness_EngineStepFrame :
    ∃ t, exec .year (flight (encode .year) 0 []) = .next t := exec_next _ _
theorem witness_NoTrafficOutsideTransactions :
    (∃ t, exec .year (flight (encode .year) 2 [0]) = .next t) ∧ Instr.busCount .year ≤ (flight (encode .year) 2 [0]).stepNo := ⟨exec_next _ _, by decide⟩
theorem witness_NoStateBetweenCommands :
    (bench []).Idle ∧ ∃ t, exec .year (bench []) = .next t := ⟨rfl, exec_next _ _⟩
theorem witness_ReadIsAddressThenByte_address :
    (flight (encode .templ) 0 []).InFlight 0 [] ∧ (flight (encode .templ) 0 []).BusGood := ⟨⟨rfl, rfl, rfl, rfl⟩, rfl⟩
theorem witness_ReadIsAddressThenByte_byte :
    let s := { flight (encode .templ) 1 [] with ap := 0x12 }
    s.InFlight 1 [] ∧ s.BusGood ∧ s.ap.toNat ≤ 0x12 := ⟨⟨rfl, rfl, rfl, rfl⟩, rfl, by decide⟩
theorem witness_ReadIsAddressThenByte_wrong :
    let s := { flight (encode (.gint true)) 1 [] with answers := [.okWith 0xFF] }
    s.InFlight 1 [] ∧ s.answers = [.okWith 0xFF] := ⟨⟨rfl, rfl, rfl, rfl⟩, rfl⟩
theorem witness_ReadIsAddressThenByte_last :
    let s := flight (encode .unixts) 10 [1, 2, 3, 4, 5]
    s.InFlight (2 * 5) [1, 2, 3, 4, 5] ∧ s.BusGood ∧ [0x06, 0x05, 0x04, 0x02, 0x01, (0x00 : Byte)][5]? = some 0x00 ∧ [1, 2, 3, 4, (5 : Byte)].length = 5 := ⟨⟨rfl, rfl, rfl, rfl⟩, rfl, rfl, rfl⟩
theorem witness_ReadIsAddressThenByte_lastByte :
    let s := { flight (encode .datestr) 5 [1, 2] with ap := 0x06 }
    s.InFlight (2 * 2 + 1) [1, 2] ∧ s.BusGood ∧ s.ap.toNat ≤ 0x12 ∧ [0x04, 0x05, (0x06 : Byte)][2]? = some 0x06 := ⟨⟨rfl, rfl, rfl, rfl⟩, rfl, by decide, rfl⟩
theorem witness_AccessorsAnswer :
    (flight (encode .month) 2 [0xFF]).InFlight 2 [0xFF] ∧ (flight (encode .month) 2 [0xFF]).cfg.monthMask = .none := ⟨⟨rfl, rfl, rfl, rfl⟩, rfl⟩
theorem witness_AccessorsAnswer_mask :
    let s := { flight (encode .month) 2 [0] with cfg := { State.reset.cfg with monthMask := .stripCentury } }
    s.InFlight 2 [0] ∧ s.cfg.monthMask = .stripCentury := ⟨⟨rfl, rfl, rfl, rfl⟩, rfl⟩
theorem witness_RawReadsAnswer :
    (realFlight (encode .rdstat) 2 [0x8B]).InFlight 2 [0x8B] := ⟨rfl, rfl, rfl, rfl⟩
theorem witness_DaynameAnswers :
    (flight (encode .dayname) 2 [0x01]).InFlight 2 [0x01] ∧ clamp (bcdToDecimal 0x01) 1 8 = (0 : Fin 7).val + 1 ∧ clamp (bcdToDecimal 0x07) 1 8 = (6 : Fin 7).val + 1 ∧ 7 < clamp (bcdToDecimal 0x08) 1 8 := ⟨⟨rfl, rfl, rfl, rfl⟩, by decide, by decide, by decide⟩
theorem witness_PureCommandsAnswer :
    (flight (encode (.leap 0)) 0 []).InFlight 0 [] := ⟨rfl, rfl, rfl, rfl⟩
theorem witness_StringsAnswer :
    (flight (encode .timestr) 6 [0x23, 0x59, 0xFF]).InFlight 6 [0x23, 0x59, 0xFF] := ⟨rfl, rfl, rfl, rfl⟩
theorem witness_UnixtsAnswers :
    (flight (encode .unixts) 12 [0xFF, 0, 1, 2, 3, 4]).InFlight 12 [0xFF, 0, 1, 2, 3, 4] := ⟨rfl, rfl, rfl, rfl⟩
theorem witness_SettersSendOneBlock :
    (flight (encode (.wrreg 0xFF 0)) 0 []).InFlight 0 [] ∧ (flight (encode (.wrreg 0xFF 0)) 0 []).BusGood ∧ (flight (encode (.wrreg 0xFF 0)) 1 []).InFlight 1 [] := ⟨⟨rfl, rfl, rfl, rfl⟩, rfl, ⟨rfl, rfl, rfl, rfl⟩⟩
theorem witness_SettersSendOneBlock_setalm :
    (flight (encode (.setalm .a2 .minute 31 7 23 59)) 0 []).InFlight 0 [] ∧ [bcdByte 59, alarmHourByte .minute 23, dayDateByte .minute 31 7] = [0x59, 0xA3, 0xB1] := ⟨⟨rfl, rfl, rfl, rfl⟩, by decide⟩
theorem witness_SettersSendOneBlock_setdt :
    (flight (encode (.setdt 2099 12 31 7 23 59 59)) 1 []).InFlight 1 [] ∧ ([59, 59, 23, 7, 31, 12, 2099 - 2000].map fun v => BitVec.ofNat 8 (decimalToBcd v)) = [0x59, 0x59, 0x23, 0x07, 0x31, 0x12, 0x99] := ⟨⟨rfl, rfl, rfl, rfl⟩, by decide⟩
theorem witness_AieWritesBack :
    (realFlight (encode (.aie .a1 true)) 2 [0xFF]).InFlight 2 [0xFF] ∧ (realFlight (encode (.aie .a1 true)) 2 [0xFF]).BusGood ∧ (realFlight (encode (.aie .a1 true)) 3 [0xFF]).InFlight 3 [0xFF] := ⟨⟨rfl, rfl, rfl, rfl⟩, rfl, ⟨rfl, rfl, rfl, rfl⟩⟩
theorem witness_AclrAndGintWriteBack :
    (realFlight (encode (.aclr .a2)) 2 [0xFF]).InFlight 2 [0xFF] ∧ (realFlight (encode (.aclr .a2)) 2 [0xFF]).BusGood ∧ (realFlight (encode (.aclr .a2)) 3 [0xFF]).InFlight 3 [0xFF] ∧ (flight (encode (.aclr .a2)) 2 [0]).cfg.device = .reference := ⟨⟨rfl, rfl, rfl, rfl⟩, rfl, ⟨rfl, rfl, rfl, rfl⟩, rfl⟩
theorem witness_ResultsStayInTheirRanges :
    let s := flight (encode .unixts) 12 [0xFF, 0, 1, 2, 3, 4]
    s.busy = true ∧ Instr.busCount .unixts ≤ s.stepNo ∧ legalOperands .unixts = true ∧ ∃ t, exec .unixts s = .next t := ⟨rfl, by decide, rfl, exec_next _ _⟩
theorem witness_EveryCommandCompletes :
    (bench []).Idle ∧ (bench []).BusGood ∧ legalOperands (.setalm .a2 .minute 31 7 23 59) = true ∧ legalOperands (.epoch 2000 1 1 0 0 0) = true := ⟨rfl, rfl, rfl, rfl⟩
theorem witness_AccessorsReadTheirRegister : State.reset.Idle ∧ State.reset.BusGood := ⟨rfl, rfl⟩
theorem witness_StringsPrintTheRegisters : State.reset.Idle ∧ State.reset.BusGood := ⟨rfl, rfl⟩
theorem witness_UnixtsConvertsTheRegisters : State.reset.Idle ∧ State.reset.BusGood := ⟨rfl, rfl⟩
theorem witness_EnablingBothAlarmsSetsBothBits :
    State.reset.Idle ∧ State.reset.BusGood := ⟨rfl, rfl⟩
theorem witness_AclrAndGintChangeOneBit :
    State.reset.Idle ∧ State.reset.BusGood ∧ (bench []).Idle ∧ (bench []).BusGood ∧ (bench []).cfg.device = .reference := ⟨rfl, rfl, rfl, rfl, rfl⟩
theorem witness_RdregReadsAnyAddress :
    State.reset.Idle ∧ State.reset.BusGood ∧ (0x12 : Byte).toNat ≤ 0x12 ∧ 0x12 < (0x13 : Byte).toNat ∧ (bench []).cfg.device = .reference := ⟨rfl, rfl, by decide, by decide, rfl⟩
theorem witness_RdregReadsWhatWrregWrote :
    State.reset.Idle ∧ State.reset.BusGood ∧ keepsWrites State.reset 0x10 ∧ keepsWrites (bench []) 0x12 := ⟨rfl, rfl, .inr (by decide), .inl rfl⟩
theorem witness_SetdtReadsBack :
    State.reset.Idle ∧ State.reset.BusGood ∧ legalOperands (.setdt 2099 12 31 7 23 59 59) = true := ⟨rfl, rfl, rfl⟩
theorem witness_SetalmProgramsTheAlarm :
    State.reset.Idle ∧ State.reset.BusGood ∧ legalOperands (.setalm .a1 .weekdayHourMinute 31 7 23 59) = true := ⟨rfl, rfl, rfl⟩
theorem witness_ChipChangesItsOwnRegisters :
    State.reset.cfg.chipEnv = .free ∧ (bench []).cfg.chipEnv = .static ∧ State.agenda { bench [] with agenda := [.chip [(0x00, 1), (0x12, 2)]] } = [.chip [(0x00, 1), (0x12, 2)]] := ⟨rfl, rfl, rfl⟩
theorem witness_OtherMastersTouchOnlyTheChip :
    State.agenda { bench [] with agenda := [.master .read] } = [.master .read] := rfl
theorem witness_ConcurrentUpdateIsLost :
    let s := { flight (encode (.aie .a1 true)) 2 [0x00] with agenda := [.master (.write 0x0E [0x02])] }
    s.InFlight 2 [0x00] ∧ s.BusGood ∧ s.cmd = encode (.aie .a1 true) ∧ s.agenda = [.master (.write 0x0E [0x02])] := ⟨⟨rfl, rfl, rfl, rfl⟩, rfl, rfl, rfl⟩
theorem witness_SplitReadReadsAnotherRegister :
    let s := { flight (encode (.rdreg 0)) 1 [] with agenda := [.master (.write 0x12 [])] }
    s.InFlight 1 [] ∧ s.BusGood ∧ s.cmd = encode (.rdreg 0) ∧ (0x12 : Byte).toNat ≤ 0x12 ∧ s.agenda = [.master (.write 0x12 [])] := ⟨⟨rfl, rfl, rfl, rfl⟩, rfl, rfl, by decide, rfl⟩
theorem witness_WrittenBlockReadsBack :
    State.reset.Idle ∧ State.reset.BusGood ∧ (bench []).Idle ∧ (bench []).BusGood ∧ (0x0E : Byte).toNat + [1, 2, 3, 4, (5 : Byte)].length ≤ 0x13 ∧ keepsWrites State.reset (0x0E + 2) ∧ keepsWrites (bench []) (0x0E + 4) := ⟨rfl, rfl, rfl, rfl, by decide, .inr (by decide), .inl rfl⟩
theorem witness_ReferenceDeviceIsExact : (bench []).cfg.device = .reference := rfl
theorem witness_ClampLaws :
    0 ≤ 59 ∧ clamp 60 0 59 = 59 ∧ clamp 0 1 12 = 1 ∧ clamp 12 1 12 = 12 := by decide
theorem witness_CodecLaws :
    decimalToBcd 99 = 0x99 ∧ decimalToBcd 159 = 0xF9 ∧ (0x99 : Byte).toNat / 16 ≤ 9 ∧ (0x99 : Byte).toNat % 16 ≤ 9 ∧ decimalToBcd 80 = 0x80 ∧ decimalToBcd 79 = 0x79 ∧ decimalToBcd 59 = 0x59 ∧ decimalToBcd 31 = 0x31 ∧ decimalToBcd 23 = 0x23 ∧ decimalToBcd 7 = 7 := by decide
theorem witness_AlarmFlagsNeverMeetDigits :
    dayDateByte .weekdayHourMinute 31 7 = 0x47 ∧ dayDateByte .minute 31 7 = 0xB1 ∧ alarmHourByte .minute 23 = 0xA3 ∧ bcdByte 59 = 0x59 := by decide
theorem witness_EpochSecondsFits32Bits_signed :
    epochSeconds 2038 1 19 3 14 7 = 2 ^ 31 - 1 ∧ epochSeconds 2038 1 19 3 14 8 = 2 ^ 31 ∧ epochSeconds 2037 12 31 23 59 59 < 2 ^ 31 ∧ 2 ^ 31 < epochSeconds 2038 1 20 0 0 0 ∧ 2 ^ 31 < epochSeconds 2038 2 1 0 0 0 ∧ 2 ^ 31 < epochSeconds 2039 1 1 0 0 0 := by decide
theorem witness_EpochSecondsFits32Bits :
    2000 ≤ 2099 ∧ 2099 ≤ 2099 ∧ 1 ≤ 12 ∧ 12 ≤ 12 ∧ 1 ≤ 31 ∧ 31 ≤ 31 ∧ 23 ≤ 23 ∧ 59 ≤ 59 := by decide
theorem witness_EpochSecondsCountsDays :
    2000 ≤ 2000 ∧ 2000 ≤ 2099 ∧ epochSeconds 2000 3 1 0 0 0 = 951868800 := by decide
theorem witness_DatesPastTheMonthCountOn :
    daysInMonth 2024 2 < 31 ∧ daysInMonth 2023 11 < 31 ∧ (bench []).Idle := ⟨by decide, by decide, rfl⟩
theorem witness_EveryStepKeepsTheInvariant :
    (bench [(0x00, 1), (0x12, 2)]).Inv ∧ ∃ t, step (bench [(0x00, 1), (0x12, 2)]) = .next t := ⟨⟨by decide, (by intro h; cases h), (by intro h; cases h), rfl, by intro r h; cases h⟩, _, rfl⟩
theorem witness_EveryStepKeepsTheInvariant_inFlight :
    (flight (encode .unixts) 3 [0x24] [(0x06, 0x24)]).Inv := ⟨rfl, fun _ => ⟨.unixts, rfl, rfl, by decide, rfl⟩, (by intro h; cases h), rfl, by intro r h; cases h⟩
theorem witness_EveryStepKeepsTheInvariant_hung :
    State.Inv { flight (encode .unixts) 3 [0x24] with transferring := true } := ⟨rfl, fun _ => ⟨.unixts, rfl, rfl, by decide, rfl⟩,
      fun _ => ⟨rfl, rfl, .unixts, rfl, by decide⟩, rfl, by intro r h; cases h⟩
theorem witness_PowerUpTouchesOnlyTheChip :
    State.agenda { flight (encode .year) 1 [] with agenda := [.powerUp (.replicate 19 0xFF) 0x13] } = [.powerUp (.replicate 19 0xFF) 0x13] ∧ 0 < 19 ∧ 18 < 19 := ⟨rfl, by decide, by decide⟩
theorem witness_NumeralsHaveNoLeadingZero :
    dec 0 = [0x30] ∧ dec 9 = [0x39] ∧ dec 10 = [0x31, 0x30] ∧ dec 99 = [0x39, 0x39] ∧ dec 2000 = [0x32, 0x30, 0x30, 0x30] ∧ dec 2099 = [0x32, 0x30, 0x39, 0x39] := by decide
theorem witness_CompletedWriteInTheMapRaisesNoFlag :
    State.BusGood (realFlight (encode (.aclr .a1)) 2 [0x8B]) ∧ (realFlight (encode (.aclr .a1)) 2 [0x8B]).InFlight 2 [0x8B] ∧ (realFlight (encode (.aclr .a1)) 2 [0x8B]).cfg.device = .real ∧ (realFlight (encode (.wrreg 0x0F 0xFF)) 0 []).InFlight 0 [] := ⟨rfl, ⟨rfl, rfl, rfl, rfl⟩, rfl, ⟨rfl, rfl, rfl, rfl⟩⟩
theorem witness_CompletedWriteInTheMapRaisesNoFlag_master :
    let s := { realFlight (encode .year) 1 [] with agenda := [.master (.write 0x0E [1, 2, 3, 4, 5])] }
    s.cfg.device = .real ∧ s.agenda = [.master (.write 0x0E [1, 2, 3, 4, 5])] ∧ (0x0E : Byte).toNat + [1, 2, 3, 4, (5 : Byte)].length ≤ 0x13 ∧ [1, 2, 3, 4, (5 : Byte)][1]? = some 2 ∧ (0x0E : Byte).toNat + 1 = 0x0F := ⟨rfl, rfl, by decide, rfl, rfl⟩
theorem witness_CompletedWriteInTheMapRaisesNoFlag_aside :
    0x0F < (0x10 : Byte).toNat ∧ (0x10 : Byte).toNat + [1, 2, (3 : Byte)].length ≤ 0x13 ∧ (0x0C : Byte).toNat + [1, 2, (3 : Byte)].length ≤ 0x0F := by decide

end Sys2Proof.Tests
end

section
/-! SUPPORT. The scope's arithmetic: the clamp (00_scope.md R7) and the decimal numeral (R9). -/

namespace Sys2Proof.Machine

theorem clamp_below {v lo hi : Nat} (h : v < lo) : clamp v lo hi = lo := if_pos h

theorem clamp_above {v lo hi : Nat} (h : lo ≤ hi) (hv : hi < v) : clamp v lo hi = hi := by
  rw [clamp, if_neg (by omega), if_pos hv]

/-- A clamped value lies between the bounds, where the clamp changes nothing. -/
theorem clamp_clamp {v lo hi : Nat} (h : lo ≤ hi) : clamp (clamp v lo hi) lo hi = clamp v lo hi :=
  clamp_inside (le_clamp h) (clamp_le h)

/-- Settles O47, clause by clause from the laws of the clamp. -/
theorem clampLaws : Obligations.ClampLaws := by
  intro v lo hi h
  exact ⟨clamp_below, clamp_above h, clamp_inside, clamp_clamp h, le_clamp h, clamp_le h⟩

/-- The ten digits are ten different characters. -/
theorem digit_inj {m n : Nat} (hm : m < 10) (hn : n < 10) (h : digit m = digit n) : m = n := by
  have codes := congrArg BitVec.toNat h
  simp only [digit, BitVec.toNat_ofNat] at codes
  omega

/-- The numeral of a positive number begins with one of the digits 1 to 9. -/
theorem dec_eq_digit_cons {n : Nat} (h : 0 < n) :
    ∃ d rest, 0 < d ∧ d < 10 ∧ dec n = digit d :: rest := by
  induction n using Nat.strong_induction_on with
  | h n ih =>
    by_cases hn : n < 10
    · exact ⟨n, [], h, hn, dec_digit hn⟩
    · obtain ⟨d, rest, hd, hd10, e⟩ := ih (n / 10) (by omega) (by omega)
      exact ⟨d, rest ++ [digit (n % 10)], hd, hd10, by
        rw [dec_append (by omega), e, List.cons_append]⟩

theorem dec_no_leading_zero {n : Nat} (h : 0 < n) : (dec n).head? ≠ some (digit 0) := by
  obtain ⟨d, rest, hd, hd10, e⟩ := dec_eq_digit_cons h
  rw [e, List.head?_cons]
  intro hzero
  have := digit_inj hd10 (by omega) (Option.some.inj hzero)
  omega

/-- Settles O57: the numeral's recursion and its fixed lengths are the laws of `dec`, and its first
digit is found by induction along that recursion. -/
theorem numeralsHaveNoLeadingZero : Obligations.NumeralsHaveNoLeadingZero := by
  refine ⟨fun _ => dec_digit, fun _ => dec_append, fun _ => dec_no_leading_zero,
    fun _ => dec_twoDigits, fun n hlo hhi => ?_⟩
  obtain ⟨v, rfl⟩ := Nat.exists_eq_add_of_le hlo
  rw [Nat.add_sub_cancel_left]
  exact dec_year (by omega)

end Sys2Proof.Machine
end

section
/-! SUPPORT. The decoder reads a command back from its word, and answers with well-formed commands only (30_encoding.md R103, R104). -/

namespace Sys2Proof

/-- The fields below the opcode are fields of the operand bits. -/
theorem bits_encode_operand {i : Instr} (h : i.WellFormed = true) {hi lo : Nat} (hl : lo ≤ hi)
    (hh : hi < 56) :
    bits (encode i) hi lo = i.operandBits / 2 ^ lo % 2 ^ (hi - lo + 1) := by
  have above : 2 ^ 56 * i.opcode = 2 ^ lo * (2 ^ (hi - lo + 1) * (2 ^ (55 - hi) * i.opcode)) := by
    rw [← Nat.mul_assoc, ← Nat.mul_assoc, ← Nat.pow_add, ← Nat.pow_add]
    congr 2
    omega
  rw [bits_encode h, above, Nat.mul_add_div (by positivity), Nat.mul_add_mod]

theorem ifReservedClear_of_clear {w : Word64} {ranges : List (Nat × Nat)} {i j : Instr}
    (hc : reservedClear w ranges = true) (hj : j = i) : ifReservedClear w ranges j = .ok i := by
  rw [ifReservedClear, if_pos hc, hj]

theorem eq_of_ifReservedClear {w : Word64} {ranges : List (Nat × Nat)} {i j : Instr}
    (h : ifReservedClear w ranges j = .ok i) : j = i := by
  unfold ifReservedClear at h
  split_ifs at h
  exact Except.ok.inj h

theorem byteField_eq {w : Word64} {lo : Nat} {b : Byte} (h : bits w (lo + 7) lo = b.toNat) :
    byteField w lo = b := by
  rw [byteField, h, BitVec.ofNat_toNat, BitVec.setWidth_eq]

theorem alarmNameOf_eq {k : Nat} {n : AlarmName} (h : k = n.code) : alarmNameOf k = n := by
  rw [h, alarmNameOf_code]

theorem alarmModeOf_eq {k : Nat} {m : AlarmMode} (h : k = m.code) : alarmModeOf k = m := by
  rw [h, alarmModeOf_code]

theorem beq_one_eq {k : Nat} {en : Bool} (h : k = enableCode en) : (k == 1) = en := by
  rw [h, enableCode_beq_one]

/-- Every well-formed command is decoded from its word: its reserved bits are 0, and each field lies
in the operand bits at a place where no other field reaches. -/
theorem decode_encode {i : Instr} (h : i.WellFormed = true) : decode (encode i) = .ok i := by
  have field := @bits_encode_operand i h
  unfold decode
  rw [opcode_encode h]
  cases i
  case rdreg a | bcd2dec a | dec2bcd a =>
    refine ifReservedClear_of_clear ?_ ?_
    · simp (disch := omega) [reservedClear, field, Instr.operandBits]; omega
    · rw [byteField_eq (b := a)]
      simp (disch := omega) [field, Instr.operandBits]; omega
  case wrreg a v =>
    refine ifReservedClear_of_clear ?_ ?_
    · simp (disch := omega) [reservedClear, field, Instr.operandBits]; omega
    · rw [byteField_eq (b := a), byteField_eq (b := v)]
      all_goals simp (disch := omega) [field, Instr.operandBits]; omega
  case leap | epoch | setdt =>
    simp only [Instr.WellFormed, Bool.and_eq_true, decide_eq_true_eq] at h
    refine ifReservedClear_of_clear ?_ ?_
    · simp (disch := omega) [reservedClear, field, Instr.operandBits]; omega
    · simp (disch := omega) [field, Instr.operandBits]; omega
  case setalm n m d wd hr mi =>
    simp only [Instr.WellFormed, Bool.and_eq_true, decide_eq_true_eq] at h
    have hn := n.code_lt
    have hm := m.code_lt
    refine ifReservedClear_of_clear ?_ ?_
    · simp (disch := omega) [reservedClear, field, Instr.operandBits]; omega
    · rw [alarmNameOf_eq (n := n), alarmModeOf_eq (m := m)]
      all_goals simp (disch := omega) [field, Instr.operandBits]; omega
  case aie n en =>
    have hn := n.code_lt
    have he := enableCode_lt en
    refine ifReservedClear_of_clear ?_ ?_
    · simp (disch := omega) [reservedClear, field, Instr.operandBits]; omega
    · rw [alarmNameOf_eq (n := n), beq_one_eq (en := en)]
      all_goals simp (disch := omega) [field, Instr.operandBits]; omega
  case aclr n =>
    have hn := n.code_lt
    refine ifReservedClear_of_clear ?_ ?_
    · simp (disch := omega) [reservedClear, field, Instr.operandBits]; omega
    · rw [alarmNameOf_eq (n := n)]
      simp (disch := omega) [field, Instr.operandBits]; omega
  case gint en =>
    have he := enableCode_lt en
    refine ifReservedClear_of_clear ?_ ?_
    · simp (disch := omega) [reservedClear, field, Instr.operandBits]; omega
    · rw [beq_one_eq (en := en)]
      simp (disch := omega) [field, Instr.operandBits]; omega
  all_goals
    refine ifReservedClear_of_clear ?_ rfl
    simp (disch := omega) [reservedClear, field, Instr.operandBits]

theorem bits_lt {w : Word64} {hi lo n : Nat} (h : 2 ^ (hi - lo + 1) ≤ n) : bits w hi lo < n :=
  (Nat.mod_lt _ (by positivity)).trans_le h

/-- The decoder answers with well-formed commands only: a field holds no more than its width. -/
theorem wellFormed_of_decode {w : Word64} {i : Instr} (h : decode w = .ok i) :
    i.WellFormed = true := by
  unfold decode at h
  split at h
  case h_27 => cases h
  all_goals
    obtain rfl := eq_of_ifReservedClear h
    simp [Instr.WellFormed, bits_lt]
end Sys2Proof
end

section
/-! SUPPORT. One step of the machine and the state between commands: which command a step runs, acceptance, waiting, reset and power-up (10_state.md R20 to R53). -/

namespace Sys2Proof.Machine

/-- When it is the engine's move on an empty agenda, a step works on the word of a well-formed
command by running the command. -/
theorem step_runs {s : State} {i : Instr} (hi : i.WellFormed = true)
    (hw : s.currentWord = some (encode i)) (ha : s.agenda = []) : step s = exec i s := by
  rw [step_engine ha, engineStep_ok hw (decode_encode hi)]

/-- Settles O7: the word decodes to its command, and the word does not depend on the agenda. -/
theorem stepRunsTheCommand : Obligations.StepRunsTheCommand := by
  intro s i hi hw
  refine ⟨step_runs hi hw, fun rest ha => ?_⟩
  have hw' : State.currentWord { s with agenda := rest } = some (encode i) := hw
  rw [step_engine_move ha, engineStep_ok hw' (decode_encode hi)]

theorem currentWord_present (s : State) (w : Word64) : (s.present w).currentWord = some w := by
  rw [currentWord_idle (State.present_busy s w)]
  exact placeAt_get w s.commands s.cix

/-- Settles O8: the word placed is the one the idle engine looks at. -/
theorem placedWordRunsNext : Obligations.PlacedWordRunsNext := by
  intro s i hi
  refine step_runs hi ?_ (State.present_agenda s _)
  have word : BitVec.ofNat 64 ((encode i).toNat % 2 ^ 64) = encode i := by
    rw [Nat.mod_eq_of_lt (encode i).isLt, BitVec.ofNat_toNat, BitVec.setWidth_eq]
  rw [State.withFetchWord, word, currentWord_present]

/-- Settles O9: acceptance is `accept`, whose fields are the ones named. -/
theorem acceptTakesTheCommand : Obligations.AcceptTakesTheCommand :=
  fun _ _ idle legal => exec_accepts idle legal

/-- Settles O12: past the end of the host's list there is no word to work on. -/
theorem idleEngineWaits : Obligations.IdleEngineWaits := by
  rintro s ⟨idle, ended⟩ ha
  have hw : s.currentWord = none := by
    rw [currentWord_idle idle]
    exact List.getElem?_eq_none ended
  rw [step_engine ha, engineStep_waits hw]

/-- Settles O15: a reset move is `engineReset`, whatever was in flight. -/
theorem resetDropsTheCommand : Obligations.ResetDropsTheCommand :=
  fun _ _ _ ha => step_reset ha

/-- Settles O56: the power-up lists the bytes of the move at the addresses 0 to 18. -/
theorem powerUpTouchesOnlyTheChip : Obligations.PowerUpTouchesOnlyTheChip := by
  intro s regs p rest ha
  refine ⟨Memory.listedFrom 0 regs.toList, step_powerUp ha, fun a h => ?_⟩
  have listed := get?_listedFrom 0 a regs.toList
  rw [Nat.zero_add] at listed
  simp [listed, h]

theorem exec_refuses {i : Instr} {s : State} {k : Nat} (idle : s.Idle) (bad : badOperand i = some k) :
    exec i s = .next (raise .invalidArgument k s) := by
  rw [exec_eq, bad, runCommand_idle_bad idle]

/-- Settles O19: an idle engine accepts the next command over what it still holds, or refuses it and
holds that still. -/
theorem noStateBetweenCommands : Obligations.NoStateBetweenCommands := by
  intro i s t w n ts idle h
  cases bad : badOperand i with
  | none =>
    have legal := (badOperand_eq_none i).1 bad
    cases (exec_accepts idle legal).symm.trans h
    exact ⟨_, exec_accepts (s := { s with cmd := w, stepNo := n, temps := ts }) idle legal, rfl⟩
  | some k =>
    cases (exec_refuses idle bad).symm.trans h
    exact ⟨_, exec_refuses (s := { s with cmd := w, stepNo := n, temps := ts }) idle bad, rfl⟩

end Sys2Proof.Machine
end

section
/-! SUPPORT. The frame of one engine step (10_state.md R23 to R26, 00_scope.md R10, R11). -/

namespace Sys2Proof.Machine

section Disturb
variable (x : Txn) (left : List Byte) (s : State)
@[simp] theorem disturb_busy : (disturb x left s).busy = s.busy := (chipOnly_disturb x left s).busy
@[simp] theorem disturb_cmd : (disturb x left s).cmd = s.cmd := (chipOnly_disturb x left s).cmd
@[simp] theorem disturb_stepNo : (disturb x left s).stepNo = s.stepNo :=
  (chipOnly_disturb x left s).stepNo
@[simp] theorem disturb_temps : (disturb x left s).temps = s.temps :=
  (chipOnly_disturb x left s).temps
@[simp] theorem disturb_cix : (disturb x left s).cix = s.cix := (chipOnly_disturb x left s).cix
@[simp] theorem disturb_commands : (disturb x left s).commands = s.commands :=
  (chipOnly_disturb x left s).commands
@[simp] theorem disturb_responses : (disturb x left s).responses = s.responses :=
  (chipOnly_disturb x left s).responses
@[simp] theorem disturb_cfg : (disturb x left s).cfg = s.cfg := (chipOnly_disturb x left s).cfg
@[simp] theorem disturb_answers : (disturb x left s).answers = s.answers :=
  (chipOnly_disturb x left s).answers
@[simp] theorem disturb_agenda : (disturb x left s).agenda = s.agenda :=
  (chipOnly_disturb x left s).agenda
@[simp] theorem disturb_trace : (disturb x left s).trace = s.trace :=
  (chipOnly_disturb x left s).trace
end Disturb

/-- A completed transaction keeps the temporaries, and a read adds one. -/
theorem completeTxn_temps (x : Txn) (b : Option Byte) (s : State) :
    ∃ l, (completeTxn x b s).temps = s.temps ++ l ∧ l.length ≤ 1 := by
  cases x with
  | write a data => exact ⟨[], by simp, by simp⟩
  | read => exact ⟨_, completeTxn_read_temps b s, by simp⟩

/-- Settles O17: case by case over what an engine step, and in it a transaction, can do. -/
theorem engineStepFrame : Obligations.EngineStepFrame := by
  intro i s t h
  obtain ⟨hb, -, rfl⟩ | ⟨k, hb, -, rfl⟩ | ⟨x, hb, -, -, rfl⟩ | ⟨hb, -, rfl⟩ := exec_cases h
  · exact ⟨rfl, rfl, rfl, ⟨[], by simp⟩, ⟨[], by simp⟩, .inl rfl, by simp [hb]⟩
  · exact ⟨rfl, rfl, rfl, ⟨[], by simp⟩, ⟨_, rfl, by simp⟩, .inl rfl, by simp [hb]⟩
  · obtain ⟨-, e⟩ | ⟨-, b, e⟩ | ⟨-, left, -, e⟩ | ⟨-, left, -, e⟩ := transact_cases x s
    all_goals rw [e]
    · exact ⟨rfl, rfl, rfl, ⟨[], by simp⟩, ⟨[], by simp⟩, .inl rfl,
        fun _ => ⟨rfl, fun _ => ⟨.inl rfl, [], by simp⟩⟩⟩
    · obtain ⟨r, trace⟩ := completeTxn_trace x b s.takeAnswer
      exact ⟨by simp, by simp, by simp, ⟨_, trace, by simp⟩, ⟨[], by simp⟩, .inr (by simp),
        fun _ => ⟨by simp, fun _ => ⟨.inr (by simp), completeTxn_temps x b s.takeAnswer⟩⟩⟩
    · exact ⟨by simp, by simp, by simp, ⟨[⟨devAddr, x, .failed⟩], by simp⟩,
        ⟨[faultResponse .busError s.stepNo], by simp [faultResponse]⟩, .inr (by simp), by simp⟩
    · exact ⟨by simp, by simp, by simp, ⟨[⟨devAddr, x, .pending⟩], by simp⟩, ⟨[], by simp⟩,
        .inr (by simp), fun _ => ⟨by simp, fun _ => ⟨.inl (by simp), [], by simp⟩⟩⟩
  · exact ⟨rfl, rfl, rfl, ⟨[], by simp [finishOf]⟩, ⟨_, rfl, by simp [finishOf]⟩, .inl rfl,
      fun _ => ⟨rfl, by simp [finishOf]⟩⟩

/-- Settles O18: of the four things an engine step can do, only a transaction needs one to be left. -/
theorem noTrafficOutsideTransactions : Obligations.NoTrafficOutsideTransactions := by
  intro i s t h outside
  obtain ⟨-, -, rfl⟩ | ⟨k, -, -, rfl⟩ | ⟨x, hb, -, left, -⟩ | ⟨-, -, rfl⟩ := exec_cases h
  · exact ⟨rfl, rfl, rfl, rfl⟩
  · exact ⟨rfl, rfl, rfl, rfl⟩
  · exact absurd (outside hb) (Nat.not_le_of_lt left)
  · exact ⟨rfl, rfl, rfl, rfl⟩

end Sys2Proof.Machine
end

section
/-! SUPPORT. The invariant of the machine: it holds after reset and every agent's step keeps it (10_state.md R21 to R26, 20_memory.md R64). -/

namespace Sys2Proof.Machine

/-- Settles O54: reset has no command in flight, no response, no transaction and no written register. -/
theorem resetMeetsTheInvariant : Obligations.ResetMeetsTheInvariant :=
  ⟨{ memory := reset_mem_wf
     inFlight := fun busy => absurd busy Bool.false_ne_true
     waiting := fun pending => absurd pending Bool.false_ne_true
     counted := rfl
     addressed := fun _ issued => absurd issued List.not_mem_nil }, rfl, rfl⟩

/-- Every read of the list follows the address write of its register. -/
def readsFollowWrites : List Txn → Bool
  | [] => true
  | [.write _ _] => true
  | .write _ _ :: .read :: l => readsFollowWrites l
  | _ => false

/-- In such a list the reads stand at the odd places. -/
theorem odd_place_iff_read {l : List Txn} (h : readsFollowWrites l = true) {n : Nat} {x : Txn}
    (hx : l[n]? = some x) : n % 2 = 1 ↔ x = .read := by
  induction l using readsFollowWrites.induct generalizing n with
  | case1 => cases hx
  | case2 a data =>
    match n with
    | 0 => cases hx; simp
    | n + 1 => cases hx
  | case3 a data l ih =>
    match n with
    | 0 => cases hx; simp
    | 1 => cases hx; simp
    | n + 2 => rw [Nat.add_mod_right]; exact ih h hx
  | case4 l _ _ _ => simp [readsFollowWrites] at h

theorem planOf_readsFollowWrites (s : State) (i : Instr) : readsFollowWrites (planOf s i) = true := by
  cases i <;> rfl

/-- The inputs still to come are no part of the invariant. -/
theorem State.Inv.inputs {s : State} (h : s.Inv) (as : List Answer) (ms : List Move) :
    State.Inv { s with answers := as, agenda := ms } :=
  ⟨h.memory, h.inFlight, h.waiting, h.counted, h.addressed⟩

/-- Whatever moves the chip alone keeps the invariant if it keeps the register file canonical. -/
theorem ChipOnly.keeps_inv {s t : State} (h : ChipOnly s t) (hm : Memory.wf t.mem = true)
    (hs : s.Inv) : t.Inv := by
  obtain ⟨m, p, n, rfl⟩ := h
  exact ⟨hm, hs.inFlight, hs.waiting, hs.counted, hs.addressed⟩

theorem logTxn_addressed {s : State} (h : ∀ r ∈ s.trace, r.device = devAddr) (x : Txn)
    (res : TxnResult) : ∀ r ∈ (logTxn x res s).trace, r.device = devAddr := by
  intro r hr
  simp only [logTxn_trace, List.mem_append, List.mem_singleton] at hr
  rcases hr with hr | rfl
  · exact h r hr
  · rfl

/-- The part of a failed or pending transaction that the chip and the bus see keeps the invariant. -/
theorem logTxn_disturb_keeps_inv (x : Txn) (res : TxnResult) (left : List Byte) {s : State}
    (h : s.Inv) : (logTxn x res (disturb x left s)).Inv := by
  have hd : (disturb x left s).Inv :=
    (chipOnly_disturb x left s).keeps_inv (wf_disturb x left h.memory) h
  exact ⟨hd.memory, hd.inFlight, hd.waiting, hd.counted, logTxn_addressed hd.addressed x res⟩

theorem deliver_keeps_inv (r : Response) {s : State} (h : s.Inv) : (deliver r s).Inv where
  memory := h.memory
  inFlight := by simp
  waiting := by simp
  counted := by simp [h.counted]
  addressed := h.addressed

theorem engineReset_keeps_inv {s : State} (h : s.Inv) : (engineReset s).Inv where
  memory := h.memory
  inFlight := by simp
  waiting := by simp
  counted := h.counted
  addressed := h.addressed

theorem accept_keeps_inv {i : Instr} (hi : i.WellFormed = true) (legal : legalOperands i = true)
    {s : State} (h : s.Inv) : (accept i s).Inv where
  memory := h.memory
  inFlight := fun _ => ⟨i, decode_encode hi, legal, Nat.zero_le _, by simp⟩
  waiting := by simp
  counted := h.counted
  addressed := h.addressed

theorem wf_completeTxn (x : Txn) (b : Option Byte) {s : State} (h : Memory.wf s.mem = true) :
    Memory.wf (completeTxn x b s).mem = true := by
  cases x with
  | write a data => simpa using wf_busWrite a data h
  | read => simpa using h

/-- A completed transaction of a rule leaves one temporary for every two transactions done. -/
theorem completeTxn_temps_length {i : Instr} {x : Txn} (b : Option Byte) {s : State}
    (hx : (planOf s i)[s.stepNo]? = some x) (hl : s.temps.length = s.stepNo / 2) :
    (completeTxn x b s).temps.length = (s.stepNo + 1) / 2 := by
  have odd := odd_place_iff_read (planOf_readsFollowWrites s i) hx
  cases x with
  | write a data =>
    have even : s.stepNo % 2 ≠ 1 := fun h => by cases odd.1 h
    rw [completeTxn_write_temps]
    omega
  | read =>
    have := odd.2 rfl
    rw [completeTxn_read_temps, List.length_append, List.length_singleton]
    omega

theorem completeTxn_keeps_inv {i : Instr} {x : Txn} (b : Option Byte) {s : State} (h : s.Inv)
    (hd : decode s.cmd = .ok i) (hx : (planOf s i)[s.stepNo]? = some x) (hl : s.stepNo < i.busCount)
    (ht : s.transferring = false) : (completeTxn x b s).Inv where
  memory := wf_completeTxn x b h.memory
  inFlight := by
    intro busy
    rw [completeTxn_busy] at busy
    obtain ⟨j, hj, legal, -, temps⟩ := h.inFlight busy
    obtain rfl : i = j := Except.ok.inj (hd.symm.trans hj)
    refine ⟨i, by simpa using hd, legal, by simpa using hl, ?_⟩
    rw [completeTxn_stepNo]
    exact completeTxn_temps_length b hx temps
  waiting := by simp [ht]
  counted := by simp [h.counted]
  addressed := by
    cases x <;> exact logTxn_addressed (by simpa using h.addressed) _ _

theorem transact_keeps_inv {i : Instr} {x : Txn} {s : State} (h : s.Inv) (hb : s.busy = true)
    (hd : decode s.cmd = .ok i) (hx : (planOf s i)[s.stepNo]? = some x)
    (hl : s.stepNo < i.busCount) : (transact x s).Inv := by
  have ha : s.takeAnswer.Inv := h.inputs s.answers.tail s.agenda
  obtain ⟨-, e⟩ | ⟨ht, b, e⟩ | ⟨-, left, -, e⟩ | ⟨-, left, -, e⟩ := transact_cases x s
  all_goals rw [e]
  · exact h
  · exact completeTxn_keeps_inv b ha hd (planOf_congr (s := s) (t := s.takeAnswer) rfl i ▸ hx) hl ht
  · exact deliver_keeps_inv _ (logTxn_disturb_keeps_inv x .failed left ha)
  · obtain ⟨memory, inFlight, -, counted, addressed⟩ := logTxn_disturb_keeps_inv x .pending left ha
    exact ⟨memory, inFlight,
      fun _ => ⟨by simpa using hb, rfl, i, by simpa using hd, by simpa using hl⟩, counted, addressed⟩

/-- An engine step of the command the engine works on keeps the invariant. -/
theorem exec_keeps_inv {w : Word64} {i : Instr} {s t : State} (h : s.Inv)
    (hw : s.currentWord = some w) (hd : decode w = .ok i) (he : exec i s = .next t) : t.Inv := by
  obtain ⟨-, good, rfl⟩ | ⟨k, -, -, rfl⟩ | ⟨x, hb, hx, hl, rfl⟩ | ⟨-, -, rfl⟩ := exec_cases he
  · exact accept_keeps_inv (wellFormed_of_decode hd) ((badOperand_eq_none i).1 good) h
  · exact deliver_keeps_inv _ h
  · obtain rfl : s.cmd = w := Option.some.inj ((currentWord_busy hb).symm.trans hw)
    exact transact_keeps_inv h hb hd hx hl
  · have spent : (State.spend (drawsOf s i) s).Inv :=
      ChipOnly.keeps_inv ⟨s.mem, s.ap, _, rfl⟩ h.memory h
    exact deliver_keeps_inv _ spent

theorem engineStep_keeps_inv {s t : State} (h : s.Inv) (he : engineStep s = .next t) : t.Inv := by
  obtain rfl | ⟨w, i, hw, hd, hx⟩ | ⟨w, e, -, -, -, rfl⟩ := engineStep_cases he
  · exact h
  · exact exec_keeps_inv h hw hd hx
  · exact deliver_keeps_inv _ h

/-- Settles O53, by the agent that moves: the engine by the cases of its step, the chip and the other
masters because they move the chip alone. -/
theorem everyStepKeepsTheInvariant : Obligations.EveryStepKeepsTheInvariant := by
  intro s t h hs
  have moved : ∀ rest, State.Inv { s with agenda := rest } := h.inputs s.answers
  obtain ⟨-, he⟩ | ⟨rest, -, he⟩ | ⟨cells, rest, -, rfl⟩ | ⟨x, rest, -, rfl⟩ | ⟨rest, -, rfl⟩ |
    ⟨regs, p, rest, -, rfl⟩ := step_cases hs
  · exact engineStep_keeps_inv h he
  · exact engineStep_keeps_inv (moved rest) he
  · exact (chipOnly_chipStep cells _).keeps_inv (wf_chipStep cells h.memory) (moved rest)
  · exact (chipOnly_masterStep x _).keeps_inv (wf_masterStep x h.memory) (moved rest)
  · exact engineReset_keeps_inv (moved rest)
  · exact (chipOnly_chipPowerUp regs p _).keeps_inv (wf_chipPowerUp regs p _) (moved rest)

end Sys2Proof.Machine
end

section
/-! SUPPORT. Whole commands on a good bus, whatever their transactions: how far a run of engine steps has got (10_state.md R26, 20_memory.md R75). -/

namespace Sys2Proof.Machine

theorem execFor_add {k : Nat} (m : Nat) {i : Instr} {s t : State} (h : execFor k i s = .next t) :
    execFor (k + m) i s = execFor m i t := by
  induction k generalizing s with
  | zero => cases h; rw [Nat.zero_add]
  | succ k ih =>
    obtain ⟨u, hu⟩ := exec_next i s
    rw [execFor_succ hu] at h
    rw [Nat.add_right_comm, execFor_succ hu, ih h]

/-- `u` is the command in flight of `s` with `k` more transactions completed, and nothing answered in
between. -/
structure Progress (s u : State) (k : Nat) : Prop where
  busy : u.busy = s.busy
  transferring : u.transferring = s.transferring
  stepNo : u.stepNo = s.stepNo + k
  cix : u.cix = s.cix
  responses : u.responses = s.responses
  cfg : u.cfg = s.cfg
  commands : u.commands = s.commands
  agenda : u.agenda = s.agenda
  answers : u.answers = s.answers
  traffic : ∃ l, u.trace = s.trace ++ l ∧ l.length = k ∧ ∀ r ∈ l, r.device = devAddr

theorem Progress.refl (s : State) : Progress s s 0 :=
  ⟨rfl, rfl, rfl, rfl, rfl, rfl, rfl, rfl, rfl, [], by simp⟩

/-- One more transaction, completed. -/
theorem Progress.completeTxn {s u : State} {k : Nat} (h : Progress s u k) (x : Txn)
    (b : Option Byte) : Progress s (completeTxn x b u) (k + 1) where
  busy := by simp [h.busy]
  transferring := by simp [h.transferring]
  stepNo := by simp [h.stepNo, Nat.add_assoc]
  cix := by simp [h.cix]
  responses := by simp [h.responses]
  cfg := by simp [h.cfg]
  commands := by simp [h.commands]
  agenda := by simp [h.agenda]
  answers := by simp [h.answers]
  traffic := by
    obtain ⟨l, trace, length, device⟩ := h.traffic
    obtain ⟨r, issued⟩ := completeTxn_trace x b u
    refine ⟨l ++ [⟨devAddr, x, r⟩], by rw [issued, trace, List.append_assoc], by simp [length], ?_⟩
    simpa [or_imp, forall_and] using device

/-- On a good bus a command in flight gets on by one transaction per engine step, up to its last. -/
theorem execFor_progress {i : Instr} {s : State} (hb : s.busy = true) (ht : s.transferring = false)
    (ha : s.BusGood) {k : Nat} (hk : s.stepNo + k ≤ i.busCount) :
    ∃ u, execFor k i s = .next u ∧ Progress s u k := by
  induction k with
  | zero => exact ⟨s, rfl, .refl s⟩
  | succ k ih =>
    obtain ⟨u, run, prog⟩ := ih (by omega)
    obtain ⟨x, hx⟩ := plan_some (s := u) (i := i) (by rw [prog.stepNo]; omega)
    have last : exec i u = .next (completeTxn x none u) :=
      exec_transacts (prog.busy.trans hb) (prog.transferring.trans ht) (prog.answers.trans ha) hx
    exact ⟨_, by rw [execFor_add 1 run, execFor_succ last]; rfl, prog.completeTxn x none⟩

/-- Settles O31: acceptance, then one transaction per step, then the response. -/
theorem everyCommandCompletes : Obligations.EveryCommandCompletes := by
  intro i s idle good legal
  have start := exec_accepts idle legal
  have run : ∀ k, k ≤ i.busCount →
      ∃ u, execFor (k + 1) i s = .next u ∧ Progress (accept i s) u k := fun k hk => by
    rw [execFor_succ start]
    exact execFor_progress (s := accept i s) rfl rfl good (by simpa using hk)
  constructor
  · obtain ⟨u, steps, prog⟩ := run i.busCount le_rfl
    obtain ⟨l, trace, length, device⟩ := prog.traffic
    have last : exec i u = .next (finishOf i u) :=
      exec_responds prog.busy (by simp [prog.stepNo])
    refine ⟨finishOf i u, okResponse (valueOf u i) (textOf u i), l, ?_, ?_, rfl, trace, length, device⟩
    · rw [Completes, execFor_add 1 steps, execFor_succ last]
      rfl
    · exact ⟨rfl, congrArg (· + 1) prog.cix,
        congrArg (· ++ [okResponse (valueOf u i) (textOf u i)]) prog.responses,
        prog.cfg, prog.commands, prog.agenda, prog.answers⟩
  · intro k one most
    obtain ⟨n, rfl⟩ := Nat.exists_eq_add_of_le' one
    obtain ⟨u, steps, prog⟩ := run n (by omega)
    exact ⟨u, steps, prog.busy, prog.responses, by simp [prog.stepNo]⟩

end Sys2Proof.Machine
end

section
/-! SUPPORT. The chip on the bus: the reference device transaction by transaction, and what the chip and the other masters may change (20_memory.md R77, R80, R81). -/

namespace Sys2Proof.Machine

theorem inMap_iff {a : Byte} : inMap a = true ↔ a.toNat ≤ regTop := decide_eq_true_iff

theorem bumpPointer_reference {s : State} (h : s.cfg.device = .reference) :
    bumpPointer s = { s with ap := s.ap + 1 } := by
  rw [bumpPointer, h]

theorem storeInMap_reference {s : State} (a v : Byte) (h : s.cfg.device = .reference) :
    storeInMap a v s = s.setReg a.toNat v := by
  rw [storeInMap, h]

/-- A data byte on the reference device. -/
theorem storeByte_reference {s : State} (v : Byte) (h : s.cfg.device = .reference) :
    storeByte s v = if s.ap.toNat ≤ regTop then { s.setReg s.ap.toNat v with ap := s.ap + 1 }
      else { s with ap := s.ap + 1 } := by
  rw [storeByte, storeInMap_reference _ _ h, strayWrite_reference h]
  simp only [inMap_iff]
  split_ifs
  · exact bumpPointer_reference (s := s.setReg s.ap.toNat v) h
  · exact bumpPointer_reference h

theorem busWrite_append (a d : Byte) (data : List Byte) (s : State) :
    busWrite a (data ++ [d]) s = storeByte (busWrite a data s) d := List.foldl_concat ..

theorem readByte_reference {s : State} (h : s.cfg.device = .reference) :
    readByte s = if s.ap.toNat ≤ regTop then s.regByte s.ap.toNat else 0xFF := by
  simp only [readByte, h, inMap_iff]

theorem afterRead_reference {s : State} (h : s.cfg.device = .reference) :
    afterRead s = { s with ap := s.ap + 1 } := by
  rw [afterRead, h]

/-- Settles O46, operation by operation of the reference device. -/
theorem referenceDeviceIsExact : Obligations.ReferenceDeviceIsExact := by
  intro s h
  refine ⟨fun a => busWrite_nil a s, fun a data d => ?_, readByte_reference h, afterRead_reference h⟩
  rw [busWrite_append, storeByte_reference d (by rwa [busWrite_cfg])]
  rfl

/-- One cell of an environment step of the chip: it counts if the register is one of the chip's own. -/
def setOwn (m : Memory) (c : Host.Cell) : Memory :=
  if chipMayChange c.1 then Memory.set m c.1 c.2 else m

theorem chipStep_static {s : State} (cells : List Host.Cell) (h : s.cfg.chipEnv = .static) :
    chipStep cells s = s := by
  rw [chipStep, h]

theorem chipStep_free {s : State} (cells : List Host.Cell) (h : s.cfg.chipEnv = .free) :
    chipStep cells s = { s with mem := cells.foldl setOwn s.mem } := by
  rw [chipStep, h]
  rfl

theorem get?_setOwn_other {a : Nat} {c : Host.Cell} (m : Memory)
    (h : a ≠ c.1 ∨ chipMayChange a = false) : Memory.get? (setOwn m c) a = Memory.get? m a := by
  unfold setOwn
  split_ifs with own
  · refine get?_set_other m c.2 fun e => ?_
    obtain ne | shut := h
    · exact ne e
    · rw [e, own] at shut
      cases shut
  · rfl

theorem get?_setOwn_same {a : Nat} (m : Memory) (b : Byte) (h : chipMayChange a = true) :
    Memory.get? (setOwn m (a, b)) a = some b := by
  rw [setOwn, if_pos h, get?_set_same]

/-- The registers that are not the chip's own keep their bytes. -/
theorem get?_setOwns_kept {a : Nat} (h : chipMayChange a = false) (cells : List Host.Cell)
    (m : Memory) : Memory.get? (cells.foldl setOwn m) a = Memory.get? m a := by
  induction cells generalizing m with
  | nil => rfl
  | cons c cells ih => rw [List.foldl_cons, ih, get?_setOwn_other m (.inr h)]

/-- A register of the chip's own that is listed holds the byte listed for it. -/
theorem get?_setOwns_listed {a : Nat} (own : chipMayChange a = true) (f : Nat → Byte) (l : List Nat)
    (m : Memory) (h : a ∈ l ∨ Memory.get? m a = some (f a)) :
    Memory.get? ((l.map fun a => (a, f a)).foldl setOwn m) a = some (f a) := by
  induction l generalizing m with
  | nil => exact h.resolve_left List.not_mem_nil
  | cons b l ih =>
    rw [List.map_cons, List.foldl_cons]
    apply ih
    by_cases e : a = b
    · subst e
      exact .inr (get?_setOwn_same m (f a) own)
    · rw [get?_setOwn_other m (.inl e)]
      exact h.imp_left fun listed => (List.mem_cons.1 listed).resolve_left e

/-- Settles O41: a `chip` move sets the listed registers that are the chip's own, one by one. -/
theorem chipChangesItsOwnRegisters : Obligations.ChipChangesItsOwnRegisters := by
  intro s cells rest ha
  rw [step_chip ha]
  refine ⟨fun static => congrArg _ (chipStep_static cells static), fun free =>
    ⟨_, congrArg _ (chipStep_free cells free), fun a others => ?_, ?_⟩⟩
  · refine get?_setOwns_kept ?_ cells s.mem
    simp only [chipMayChange, Bool.or_eq_false_iff, decide_eq_false_iff_not, beq_eq_false_iff_ne]
    omega
  · rintro l f rfl a listed own
    refine get?_setOwns_listed ?_ f l s.mem (.inl listed)
    simpa [chipMayChange, or_assoc] using own

/-- Settles O42: whatever the transaction, the chip alone acts on it. -/
theorem otherMastersTouchOnlyTheChip : Obligations.OtherMastersTouchOnlyTheChip := by
  intro s x rest ha
  obtain ⟨m, p, n, e⟩ := chipOnly_masterStep x { s with agenda := rest }
  exact ⟨m, p, n, by rw [step_master ha, e]⟩

end Sys2Proof.Machine
end

section
/-! SUPPORT. Which registers a transaction spares, completed, failed or pending (20_memory.md R66, R67, R73; 93_implementation_defined.md U5). -/

namespace Sys2Proof.Machine

/-- Every byte of the transaction goes to another register than `r`, and its effect is known: it stays
in the map, or the reference device ignores it (20_memory.md R72, R81). -/
def Spares (s : State) (r : Nat) : Txn → Prop
  | .read => True
  | .write a data => ∀ k < data.length,
    a.toNat + k < 256 ∧ (a.toNat + k ≤ regTop ∨ s.cfg.device = .reference) ∧ r ≠ a.toNat + k

section Spares
variable {s t : State} {r : Nat} {a b v : Byte} {data : List Byte}

theorem Spares.head (h : Spares s r (.write a (v :: data))) :
    (inMap a = true ∨ s.cfg.device = .reference) ∧ r ≠ a.toNat := by
  obtain ⟨-, known, other⟩ := h 0 (Nat.zero_lt_succ _)
  exact ⟨known.imp_left inMap_iff.2, other⟩

theorem Spares.tail (h : Spares s r (.write a (v :: data))) (hc : t.cfg = s.cfg)
    (hb : data ≠ [] → b.toNat = a.toNat + 1) : Spares t r (.write b data) := by
  intro k hk
  have next := h (k + 1) (Nat.succ_lt_succ hk)
  rwa [hb (List.ne_nil_of_length_pos (by omega)), hc, Nat.add_assoc, Nat.add_comm 1 k]

/-- More data to come, the next address is one higher and no wrap-around. -/
theorem Spares.next (h : Spares s r (.write a (v :: data))) (hd : data ≠ []) :
    (a.toNat < regTop ∨ s.cfg.device = .reference) ∧ (a + 1).toNat = a.toNat + 1 := by
  obtain ⟨small, known, -⟩ := h 1 (Nat.succ_lt_succ (List.length_pos_iff.2 hd))
  refine ⟨known.imp_left Nat.lt_of_succ_le, ?_⟩
  rw [BitVec.toNat_add]
  exact Nat.mod_eq_of_lt small

/-- The pointer after a data byte that is followed by another. -/
theorem storeByte_ap_of_known (h : s.ap.toNat < regTop ∨ s.cfg.device = .reference) :
    (storeByte s v).ap = s.ap + 1 := by
  obtain low | ref := h
  · exact storeByte_ap v low
  · rw [storeByte_reference v ref]
    split_ifs <;> rfl

theorem leaveByte_other {left : Option Byte} (h : inMap a = true ∨ s.cfg.device = .reference)
    (hr : r ≠ a.toNat) : (leaveByte a left s).regByte r = s.regByte r := by
  unfold leaveByte
  split_ifs with ha
  · cases left with
    | none => rfl
    | some b => exact regByte_setReg_other s b hr
  · rw [strayWrite_reference (h.resolve_left ha)]

theorem storeBytes_spares (h : Spares s r (.write s.ap data)) :
    (data.foldl storeByte s).regByte r = s.regByte r := by
  induction data generalizing s with
  | nil => rfl
  | cons v vs ih =>
    obtain ⟨known, other⟩ := h.head
    rw [List.foldl_cons, ih (h.tail (storeByte_cfg s v) fun more => ?_), storeByte_other other known]
    obtain ⟨low, up⟩ := h.next more
    rw [storeByte_ap_of_known low, up]

theorem leaveBytes_spares {left : List Byte} (h : Spares s r (.write a data)) :
    (leaveBytes a data left s).regByte r = s.regByte r := by
  induction data generalizing a left s with
  | nil => rfl
  | cons v vs ih =>
    obtain ⟨known, other⟩ := h.head
    rw [leaveBytes, ih (h.tail (chipOnly_leaveByte a _ s).cfg fun more => (h.next more).2),
      leaveByte_other known other]

/-- A completed transaction leaves the registers it spares alone. -/
theorem completeTxn_spares {x : Txn} (c : Option Byte) (h : Spares s r x) :
    (completeTxn x c s).regByte r = s.regByte r := by
  cases x with
  | read => exact regByte_congr (completeTxn_read_mem c s) r
  | write a data =>
    rw [regByte_congr (completeTxn_write_mem a data c s)]
    exact storeBytes_spares (s := { s with ap := a }) h

/-- So does one that fails or never completes. -/
theorem disturb_spares {x : Txn} (left : List Byte) (h : Spares s r x) :
    (disturb x left s).regByte r = s.regByte r := by
  cases x with
  | read => rfl
  | write a data => exact leaveBytes_spares (s := State.spend 1 { s with ap := _ }) h

/-- Whatever the outcome of a transaction, the registers it spares keep their bytes. -/
theorem transact_spares {x : Txn} (h : Spares s r x) : (transact x s).regByte r = s.regByte r := by
  obtain ⟨-, e⟩ | ⟨-, c, e⟩ | ⟨-, left, -, e⟩ | ⟨-, left, -, e⟩ := transact_cases x s
  all_goals rw [e]
  · exact completeTxn_spares (s := s.takeAnswer) c h
  · exact disturb_spares (s := s.takeAnswer) left h
  · exact disturb_spares (s := s.takeAnswer) left h

/-- The transactions of a command spare every register that its write does not address. -/
theorem plan_spares {i : Instr} {x : Txn} {n : Nat} (hx : (planOf s i)[n]? = some x)
    (stays : staysInMap s i) (hr : r ∉ writtenRegisters i) : Spares s r x := by
  cases x with
  | read => trivial
  | write a data =>
    intro k hk
    by_cases hi : ∃ b v, i = .wrreg b v
    · obtain ⟨b, v, rfl⟩ := hi
      have mem : Txn.write a data ∈ planOf s (.wrreg b v) := List.mem_of_getElem? hx
      obtain ⟨rfl, rfl⟩ : a = b ∧ data = [v] := by simpa [planOf, writeRegister] using mem
      obtain rfl : k = 0 := by simpa using hk
      exact ⟨a.isLt, stays, List.ne_of_not_mem_cons hr⟩
    · obtain ⟨top, written⟩ := plan_writes hx (List.ne_nil_of_length_pos (by omega))
        fun b v e => hi ⟨b, v, e⟩
      exact ⟨by omega, .inl (by simp only [regTop]; omega), fun e => hr (e ▸ written k hk)⟩

end Spares

/-- Settles O16: acceptance, refusal and response do not touch the register file, and a transaction of
the command spares the registers not in `writtenRegisters`. -/
theorem onlyAddressedRegistersChange : Obligations.OnlyAddressedRegistersChange := by
  intro i s t h stays a _ unwritten
  obtain ⟨-, -, rfl⟩ | ⟨k, -, -, rfl⟩ | ⟨x, -, hx, -, rfl⟩ | ⟨-, -, rfl⟩ := exec_cases h
  · rfl
  · rfl
  · exact transact_spares (plan_spares hx stays unwritten)
  · rfl

end Sys2Proof.Machine
end

section
/-! SUPPORT. Register reads: the address write and the read of one byte, in a command's own order, and whole commands that read and write registers (20_memory.md R63 to R67, R75, R78). -/

namespace Sys2Proof.Machine

/-- The registers a command reads, in the order of its rule (42_field_accessors.md R183,
43_string_format.md R221, R222, 44_timestamp.md R245). -/
def registersRead : Instr → List Byte
  | .rdreg a => [a]
  | .year => [RA.year]
  | .month => [RA.month]
  | .date => [RA.date]
  | .wday | .dayname => [RA.day]
  | .hour => [RA.hour]
  | .min => [RA.minute]
  | .sec => [RA.second]
  | .rdctl | .aie _ _ | .gint _ => [RA.control]
  | .rdstat | .aclr _ => [RA.status]
  | .temph => [RA.tempHi]
  | .templ => [RA.tempLo]
  | .timestr => [RA.hour, RA.minute, RA.second]
  | .datestr => [RA.date, RA.month, RA.year]
  | .unixts => [RA.year, RA.month, RA.date, RA.hour, RA.minute, RA.second]
  | .wrreg _ _ | .bcd2dec _ | .dec2bcd _ | .leap _ | .epoch _ _ _ _ _ _ => []
  | .setalm _ _ _ _ _ _ | .setdt _ _ _ _ _ _ _ => []

/-- A command begins with its register reads. -/
theorem planOf_begins_with_reads (s : State) (i : Instr) :
    readRegisters (registersRead i) <+: planOf s i := by
  cases i <;> exact ⟨_, rfl⟩

/-- The two transactions of the `j`-th register read of a list. -/
theorem readRegisters_getElem? {as : List Byte} {j : Nat} {a : Byte} (h : as[j]? = some a) :
    (readRegisters as)[2 * j]? = some (.write a []) ∧
      (readRegisters as)[2 * j + 1]? = some .read := by
  induction as generalizing j with
  | nil => cases h
  | cons b as ih =>
    cases j with
    | zero => cases h; exact ⟨rfl, rfl⟩
    | succ j => exact ih (j := j) h

theorem planOf_read {i : Instr} {j : Nat} {a : Byte} (s : State) (h : (registersRead i)[j]? = some a) :
    (planOf s i)[2 * j]? = some (.write a []) ∧ (planOf s i)[2 * j + 1]? = some .read := by
  obtain ⟨rest, plan⟩ := planOf_begins_with_reads s i
  have early : ∀ {n : Nat} {x : Txn}, (readRegisters (registersRead i))[n]? = some x →
      (planOf s i)[n]? = some x := fun hx => by
    rw [← plan, List.getElem?_append_left (List.getElem?_eq_some_iff.1 hx).1, hx]
  exact (readRegisters_getElem? h).imp early early

/-- The engine step of a command with a transaction left issues it. -/
theorem exec_issues {i : Instr} {s : State} {x : Txn} (hb : s.busy = true)
    (hx : (planOf s i)[s.stepNo]? = some x) : exec i s = .next (transact x s) := by
  rw [exec_eq, runCommand_transact hb hx]

theorem transact_okWith (x : Txn) {s : State} {b : Byte} {rest : List Answer}
    (ht : s.transferring = false) (ha : s.answers = .okWith b :: rest) :
    transact x s = completeTxn x (some b) { s with answers := rest } := by
  simp [transact, ht, ha, State.takeAnswer]

/-- A completed read goes one step on with the byte it returned, which the trace shows. -/
theorem completeTxn_read {n : Nat} {ts : List Byte} {s : State} (h : s.InFlight n ts)
    (c : Option Byte) :
    (completeTxn .read c s).InFlight (n + 1) (ts ++ [c.getD (readByte s)]) ∧
      (completeTxn .read c s).trace =
        s.trace ++ [⟨devAddr, .read, .done (some (c.getD (readByte s)))⟩] := by
  obtain ⟨busy, free, rfl, rfl⟩ := h
  exact ⟨⟨by simpa, by simpa, by simp, by simp⟩, by simp [completeTxn]⟩

/-- Settles O20: transactions `2j` and `2j + 1` of the command are the `j`-th register read of its
rule, an address write and a read of one byte. -/
theorem readIsAddressThenByte : Obligations.ReadIsAddressThenByte := by
  intro i addrs j a ts s known ha _
  have reads : addrs = registersRead i := by
    obtain mem | ⟨r, rfl, rfl⟩ | ⟨⟨n, en, rfl⟩, rfl⟩ | ⟨⟨n, rfl⟩, rfl⟩ | ⟨⟨en, rfl⟩, rfl⟩ := known
    · simpa using
        (List.all_eq_true (p := fun p => decide (p.2 = registersRead p.1))).1 (by decide) _ mem
    all_goals rfl
  subst reads
  obtain ⟨address, read⟩ := planOf_read s ha
  refine ⟨?_, ?_, ?_⟩
  · rintro ⟨busy, free, done, -⟩ good
    rw [exec_transacts busy free good (done ▸ address), completeTxn_address, done]
    rfl
  · intro flight good inside
    have ⟨busy, free, done, _⟩ := flight
    obtain ⟨flight', trace⟩ := completeTxn_read flight none
    rw [Option.getD_none, readByte_in_map inside] at flight' trace
    exact ⟨_, exec_transacts busy free good (done ▸ read), flight', by simp, by simp, trace⟩
  · intro b rest flight wrong
    have ⟨busy, free, done, _⟩ := flight
    obtain ⟨flight', trace⟩ := completeTxn_read (s := { s with answers := rest }) flight (some b)
    exact ⟨_, by rw [exec_issues busy (done ▸ read), transact_okWith _ free wrong], flight', by simp,
      by simp, trace⟩

/-- On a good bus a command that only reads registers of the map answers from their bytes and changes
no register. -/
theorem readsAndAnswers_of_reads {i : Instr} {s : State}
    (plan : ∀ u, planOf u i = readRegisters (registersRead i)) (hf : fixedPlan i = true)
    (inside : ∀ a ∈ registersRead i, a.toNat ≤ regTop) (legal : legalOperands i = true)
    (idle : s.Idle) (good : s.BusGood) :
    ∃ u : State, u.temps = (registersRead i).map (fun a => s.regByte a.toNat) ∧ u.cfg = s.cfg ∧
      ReadsAndAnswers i s (okResponse (valueOf u i) (textOf u i)) := by
  have run := completes_fixed hf idle good legal
  rw [plan] at run
  obtain ⟨temps, mem⟩ := runTxns_readRegisters inside (accept i s)
  refine ⟨_, temps, by simp, _, run, ⟨rfl, ?_, ?_, ?_, ?_, ?_, ?_⟩, mem⟩
  all_goals simp [finishOf, okResponse]

/-- RDREG of a register of the map answers with its byte. -/
theorem rdreg_readsAndAnswers {a : Byte} {s : State} (inside : a.toNat ≤ regTop) (idle : s.Idle)
    (good : s.BusGood) :
    ReadsAndAnswers (.rdreg a) s (okResponse (s.regByte a.toNat).toNat []) := by
  obtain ⟨u, temps, -, run⟩ := readsAndAnswers_of_reads (i := .rdreg a) (fun _ => rfl) rfl
    (by simpa [registersRead] using inside) rfl idle good
  have byte : u.tmp 0 = s.regByte a.toNat := by simp [State.tmp, temps, registersRead]
  simpa [valueOf, textOf, byte] using run

/-- Settles O45: RDREG answers with the register, and `busWrite_regByte` says what each register holds
after the block. -/
theorem writtenBlockReadsBack : Obligations.WrittenBlockReadsBack := by
  intro a data s idle good top
  have reads : ∀ c : Byte, c.toNat ≤ regTop → ReadsAndAnswers (.rdreg c) (busWrite a data s)
      (okResponse ((busWrite a data s).regByte c.toNat).toNat []) := fun c inside =>
    rdreg_readsAndAnswers inside ((busWrite_busy a data s).trans idle)
      ((busWrite_answers a data s).trans good)
  constructor
  · intro j b hj keeps
    obtain ⟨hlt, -⟩ := List.getElem?_eq_some_iff.1 hj
    have address : (a + BitVec.ofNat 8 j).toNat = a.toNat + j := by
      rw [BitVec.toNat_add, BitVec.toNat_ofNat]
      omega
    have written := (busWrite_regByte top (a.toNat + j)).2 j b hj keeps rfl
    have answer := reads (a + BitVec.ofNat 8 j) (by rw [address, regTop]; omega)
    rwa [address, written] at answer
  · intro c inside outside
    have answer := reads c inside
    rwa [(busWrite_regByte top c.toNat).1 outside] at answer

/-- A write of one byte to a register that keeps it. -/
theorem busWrite_one {a : Byte} (v : Byte) {s : State} (inside : a.toNat ≤ regTop)
    (keeps : keepsWrites s a.toNat) : (busWrite a [v] s).regByte a.toNat = v :=
  storeByte_same (s := { s with ap := a }) (inMap_iff.2 inside) keeps

/-- The control register keeps what is written to it, on either device. -/
theorem busWrite_control (v : Byte) (s : State) : (busWrite RA.control [v] s).regByte 0x0E = v :=
  busWrite_one (a := RA.control) v (by decide) (.inr (by decide))

/-- The write step of AIE, from the byte it has read. -/
theorem exec_aie_writes {s : State} {c : Byte} (n : AlarmName) (en : Bool) (h : s.InFlight 2 [c])
    (good : s.BusGood) :
    exec (.aie n en) s =
      .next (completeTxn (.write RA.control [setOrClear en (alarmMask n) c]) none s) := by
  obtain ⟨busy, free, done, temps⟩ := h
  refine exec_transacts busy free good ?_
  rw [done]
  simp [planOf, readRegister, writeRegister, State.tmp, temps]

/-- What moves the chip alone leaves the command in flight where it is. -/
theorem ChipOnly.inFlight {s t : State} (h : ChipOnly s t) {n : Nat} {ts : List Byte}
    (hs : s.InFlight n ts) : t.InFlight n ts := by
  obtain ⟨m, p, d, rfl⟩ := h
  exact hs

/-- Settles O43: the other master's write lands, and AIE then writes over it what it makes of the byte
it read before. -/
theorem concurrentUpdateIsLost : Obligations.ConcurrentUpdateIsLost := by
  intro s n en c v flight good word ha
  let u : State := { s with agenda := [] }
  let t : State := busWrite RA.control [v] u
  have chip : ChipOnly u t := chipOnly_busWrite RA.control [v] u
  have flight' : t.InFlight 2 [c] := chip.inFlight flight
  have back : step t = exec (.aie n en) t :=
    step_runs rfl ((currentWord_busy flight'.1).trans (by rw [chip.cmd, ← word])) chip.agenda
  refine ⟨t, _, step_master ha, busWrite_control v u,
    back.trans (exec_aie_writes n en flight' (chip.answers.trans good)), ?_⟩
  rw [regByte_congr (completeTxn_write_mem _ _ none t), busWrite_control]

end Sys2Proof.Machine
end

section
/-! SUPPORT. A transaction that never completes (20_memory.md R64). -/

namespace Sys2Proof.Machine

/-- What moves the chip alone leaves a hung engine hung. -/
theorem ChipOnly.hung {s t : State} (h : ChipOnly s t) (hs : s.Hung) : t.Hung := by
  obtain ⟨m, p, n, rfl⟩ := h
  exact hs

/-- The engine's own step does nothing while it waits. -/
theorem engineStep_hung {s : State} (h : s.Hung) : engineStep s = .next s := by
  obtain ⟨busy, pending, i, hd, left⟩ := h
  rw [engineStep_ok (currentWord_busy busy) hd, exec_pending busy pending left]

/-- Short of a reset, one step from a hung state moves the chip and uses up the agenda, and does no
more. -/
theorem step_hung {s : State} (h : s.Hung) (noReset : ∀ m ∈ s.agenda, m ≠ Move.reset) :
    ∃ rest t, step s = .next t ∧ ChipOnly { s with agenda := rest } t ∧
      ∀ m ∈ rest, m ≠ Move.reset := by
  have hung : ∀ rest, State.Hung { s with agenda := rest } := fun _ => h
  cases ha : s.agenda with
  | nil =>
    exact ⟨s.agenda, s, (step_engine ha).trans (engineStep_hung h), .refl s, noReset⟩
  | cons m rest =>
    rw [ha] at noReset
    refine ⟨rest, ?_⟩
    have rest_noReset := fun x hx => noReset x (List.mem_cons_of_mem m hx)
    cases m with
    | engine =>
      exact ⟨_, (step_engine_move ha).trans (engineStep_hung (hung rest)), .refl _, rest_noReset⟩
    | chip cells => exact ⟨_, step_chip ha, chipOnly_chipStep cells _, rest_noReset⟩
    | master x => exact ⟨_, step_master ha, chipOnly_masterStep x _, rest_noReset⟩
    | reset => exact absurd rfl (noReset _ List.mem_cons_self)
    | powerUp regs p => exact ⟨_, step_powerUp ha, chipOnly_chipPowerUp regs p _, rest_noReset⟩

theorem run_succ {k : Nat} {s t : State} (h : step s = .next t) :
    Host.Core.run core (k + 1) s = Host.Core.run core k t := by
  have h' : core.step s = .next t := h
  simp only [Host.Core.run, h']

/-- Any number of steps short of a reset. -/
theorem run_hung (k : Nat) {s : State} (h : s.Hung) (noReset : ∀ m ∈ s.agenda, m ≠ Move.reset) :
    ∃ rest t, Host.Core.run core k s = .next t ∧ ChipOnly { s with agenda := rest } t := by
  induction k generalizing s with
  | zero => exact ⟨s.agenda, s, rfl, .refl s⟩
  | succ k ih =>
    obtain ⟨rest, u, hu, moved, left⟩ := step_hung h noReset
    obtain ⟨rest', t, ht, moved'⟩ := ih (moved.hung h) (moved.agenda ▸ left)
    obtain ⟨m, p, n, rfl⟩ := moved
    exact ⟨rest', t, (run_succ hu).trans ht, ChipOnly.trans ⟨m, p, n, rfl⟩ moved'⟩

theorem transact_never (x : Txn) {s : State} {left : List Byte} {rest : List Answer}
    (ht : s.transferring = false) (ha : s.answers = .never left :: rest) :
    transact x s =
      { logTxn x .pending (disturb x left s.takeAnswer) with transferring := true } := by
  simp [transact, ht, ha]

/-- Settles O14: while the engine waits a step moves the chip alone (`step_hung`); the wait begins
with the outcome `never` and ends with a reset. -/
theorem hangIsForEver : Obligations.HangIsForEver := by
  refine ⟨?_, ?_, ?_⟩
  · intro s h noReset k
    obtain ⟨rest, t, run, moved⟩ := run_hung k h noReset
    exact ⟨t, run, moved.hung h, moved.cmd, moved.responses, moved.cix, moved.trace⟩
  · intro i s left rest busy free more hd ha
    obtain ⟨x, hx⟩ := plan_some more
    refine ⟨_, by rw [exec_issues busy hx, transact_never x free ha], ?_, by simp, by simp⟩
    exact ⟨by simpa, rfl, i, by simpa, by simpa⟩
  · intro s rest _ ha
    exact ⟨_, step_reset ha, rfl, rfl⟩

end Sys2Proof.Machine
end

section
/-! SUPPORT. The command word and its rows: encoding what was decoded, the mask of a row as the reserved bits of its format, and the decoder's three answers row by row (30_encoding.md R103, R104, R110, R115). -/

namespace Sys2Proof

/-- Settles O1, from the law that each field of an encoded command reads back. -/
theorem decodeAfterEncode : Obligations.DecodeAfterEncode := fun _ => decode_encode

theorem ifReservedClear_eq_ok {w : Word64} {ranges : List (Nat × Nat)} {i j : Instr}
    (h : ifReservedClear w ranges j = .ok i) : reservedClear w ranges = true ∧ j = i := by
  refine ⟨?_, eq_of_ifReservedClear h⟩
  unfold ifReservedClear at h
  split_ifs at h with clear
  exact clear

@[simp] theorem byteField_toNat (w : Word64) (lo : Nat) :
    (byteField w lo).toNat = bits w (lo + 7) lo := by
  rw [byteField, BitVec.toNat_ofNat, Nat.mod_eq_of_lt (bits_lt (by simp))]

/-! The codes of the fields of one and two bits (30_encoding.md R105). -/

@[simp] theorem code_alarmNameOf_bits (w : Word64) (k : Nat) :
    (alarmNameOf (bits w k k)).code = bits w k k := by
  have h : bits w k k < 2 := bits_lt (by simp)
  interval_cases bits w k k <;> rfl

@[simp] theorem code_alarmModeOf_bits (w : Word64) (k : Nat) :
    (alarmModeOf (bits w (k + 1) k)).code = bits w (k + 1) k := by
  have h : bits w (k + 1) k < 4 := bits_lt (by simp)
  interval_cases bits w (k + 1) k <;> rfl

@[simp] theorem enableCode_bits (w : Word64) (k : Nat) :
    enableCode (bits w k k == 1) = bits w k k := by
  have h : bits w k k < 2 := bits_lt (by simp)
  interval_cases bits w k k <;> rfl

/-- A word is its opcode, its operand fields and its reserved bits; in a word that decodes these last
are 0, so it is the word of its command. -/
theorem encode_of_decode {w : Word64} {i : Instr} (h : decode w = .ok i) : encode i = w := by
  apply BitVec.eq_of_toNat_eq
  rw [encode_toNat (wellFormed_of_decode h)]
  have bound := w.isLt
  unfold decode at h
  split at h
  case h_27 => cases h
  all_goals
    rename_i op
    obtain ⟨clear, rfl⟩ := ifReservedClear_eq_ok h
    simp only [reservedClear, List.all_cons, List.all_nil, Bool.and_eq_true, beq_iff_eq] at clear
    simp only [Instr.opcode, Instr.operandBits, byteField_toNat, code_alarmNameOf_bits,
      code_alarmModeOf_bits, enableCode_bits]
    simp only [opcode, bits] at op clear ⊢
    omega

/-- Settles O2: every field of a word fits its width, and the fields make up the word again. -/
theorem encodeAfterDecode : Obligations.EncodeAfterDecode := fun _ _ h =>
  ⟨wellFormed_of_decode h, encode_of_decode h⟩

/-! A row's mask has the opcode's bits and the reserved bits of the row's format. -/

/-- A 1 at every bit of the ranges `hi:lo`. -/
def rangesMask (ranges : List (Nat × Nat)) : Word64 :=
  ranges.foldr (fun r m => BitVec.ofNat 64 (2 ^ (r.1 + 1) - 2 ^ r.2) ||| m) 0

/-- Nothing is left of a word under the mask exactly when the ranges are 0 in it. -/
theorem and_rangesMask {w : Word64} {ranges : List (Nat × Nat)}
    (valid : ∀ r ∈ ranges, r.2 ≤ r.1 ∧ r.1 < 64) :
    w &&& rangesMask ranges = 0 ↔ reservedClear w ranges = true := by
  induction ranges with
  | nil => simp [rangesMask, reservedClear]
  | cons r ranges ih =>
    obtain ⟨hr, valid⟩ := List.forall_mem_cons.1 valid
    have first : w &&& BitVec.ofNat 64 (2 ^ (r.1 + 1) - 2 ^ r.2) = 0 ↔ bits w r.1 r.2 = 0 := by
      simpa using and_segment (v := 0) hr.1 hr.2 (by positivity)
    have both := and_or_eq (w := w) (m := BitVec.ofNat 64 (2 ^ (r.1 + 1) - 2 ^ r.2))
      (n := rangesMask ranges) (f := 0) (g := 0) (by simp) (by simp) (by simp) (by simp)
    calc w &&& rangesMask (r :: ranges) = 0
        ↔ bits w r.1 r.2 = 0 ∧ reservedClear w ranges = true := by
          rw [← first, ← ih valid, ← both]; simp [rangesMask]
      _ ↔ reservedClear w (r :: ranges) = true := by simp [reservedClear]

/-- The bits `w[63:56]`. -/
def opcodeMask : Word64 := 0xFF00000000000000

theorem and_opcodeMask {w f : Word64} (hf : f &&& opcodeMask = f) :
    w &&& opcodeMask = f ↔ opcode w = opcode f := by
  have segment (v : Word64) : v &&& opcodeMask = BitVec.ofNat 64 (opcode f * 2 ^ 56) ↔
      opcode v = opcode f :=
    and_segment (hi := 63) (lo := 56) (by decide) (by decide) (bits_lt (by decide))
  rw [← segment w, ← (segment f).2 rfl, hf]

theorem shiftRight_eq_iff_opcode_eq {v w : Word64} : v >>> 56 = w >>> 56 ↔ opcode v = opcode w := by
  have hv := v.isLt
  have hw := w.isLt
  rw [← BitVec.toNat_inj, BitVec.toNat_ushiftRight, BitVec.toNat_ushiftRight,
    Nat.shiftRight_eq_div_pow, Nat.shiftRight_eq_div_pow, opcode, opcode, bits, bits]
  omega

/-- The row fixes the opcode and, at 0, the bits of these ranges, and no other bit. -/
def OpcodeRow.Reserves (r : OpcodeRow) (ranges : List (Nat × Nat)) : Prop :=
  r.mask = opcodeMask ||| rangesMask ranges ∧ r.fixed &&& opcodeMask = r.fixed ∧
    r.fixed &&& rangesMask ranges = 0 ∧ ∀ x ∈ ranges, x.2 ≤ x.1 ∧ x.1 < 64

theorem OpcodeRow.Reserves.selects_iff {r : OpcodeRow} {ranges : List (Nat × Nat)}
    (h : r.Reserves ranges) (w : Word64) :
    r.selects w ↔ opcode w = opcode r.fixed ∧ reservedClear w ranges = true := by
  obtain ⟨mask, top, below, valid⟩ := h
  rw [← and_opcodeMask top, ← and_rangesMask valid, OpcodeRow.selects, mask]
  simpa using and_or_eq (w := w) below (BitVec.zero_and) top (BitVec.zero_and)

/-- The two answers a row leaves to the decoder: a command of the row to a word that selects it, and
`reservedBit` to any other word of its opcode. -/
def OpcodeRow.Decides (r : OpcodeRow) (w : Word64) (d : Except DecodeError Instr) : Prop :=
  (r.selects w ∧ ∃ i, d = .ok i ∧ i.mnemonic = r.mnemonic) ∨
    (¬ r.selects w ∧ d = .error .reservedBit)

theorem OpcodeRow.Reserves.decides {r : OpcodeRow} {ranges : List (Nat × Nat)}
    (h : r.Reserves ranges) {w : Word64} {i : Instr} (hop : opcode w = opcode r.fixed)
    (hi : i.mnemonic = r.mnemonic) : r.Decides w (ifReservedClear w ranges i) := by
  unfold OpcodeRow.Decides
  rw [h.selects_iff, ifReservedClear]
  by_cases clear : reservedClear w ranges = true
  · exact .inl ⟨⟨hop, clear⟩, i, if_pos clear, hi⟩
  · exact .inr ⟨fun sel => clear sel.2, if_neg clear⟩

/-- The decoder's branch for an opcode of the map tests the bits that the row's mask fixes. -/
theorem decode_of_row {r : OpcodeRow} (hr : r ∈ opcodeMap) {w : Word64}
    (hop : opcode w = opcode r.fixed) : r.Decides w (decode w) := by
  unfold decode
  rw [hop]
  fin_cases hr
  all_goals
    refine OpcodeRow.Reserves.decides ?_ hop rfl
    unfold OpcodeRow.Reserves
    decide

theorem decode_unknown {w : Word64} (h : ∀ r ∈ opcodeMap, opcode w ≠ opcode r.fixed) :
    decode w = .error .unknownOpcode := by
  have missing : opcode w ∉ opcodeMap.map (opcode ·.fixed) := by
    simpa only [List.mem_map, not_exists, not_and, ne_eq, eq_comm] using h
  unfold decode
  split
  case h_27 => rfl
  all_goals
    rename_i op
    rw [op] at missing
    exact absurd (by decide) missing

/-- A word is of one row of the map, which decides its answer, or of none. -/
theorem decode_cases (w : Word64) :
    (∃ r ∈ opcodeMap, opcode w = opcode r.fixed ∧ r.Decides w (decode w)) ∨
      ((∀ r ∈ opcodeMap, opcode w ≠ opcode r.fixed) ∧ decode w = .error .unknownOpcode) := by
  by_cases h : ∃ r ∈ opcodeMap, opcode w = opcode r.fixed
  · obtain ⟨r, hr, hop⟩ := h
    exact .inl ⟨r, hr, hop, decode_of_row hr hop⟩
  · have missing : ∀ r ∈ opcodeMap, opcode w ≠ opcode r.fixed := fun r hr hop => h ⟨r, hr, hop⟩
    exact .inr ⟨missing, decode_unknown missing⟩

theorem row_eq_of_mnemonic_eq {r q : OpcodeRow} (hr : r ∈ opcodeMap) (hq : q ∈ opcodeMap)
    (h : r.mnemonic = q.mnemonic) : r = q :=
  List.inj_on_of_nodup_map (f := OpcodeRow.mnemonic) (by decide) hr hq h

/-- The mask of every row covers the opcode. -/
theorem opcode_of_selects {r : OpcodeRow} (hr : r ∈ opcodeMap) {w : Word64} (h : r.selects w) :
    opcode w = opcode r.fixed := by
  have rows : ∀ q ∈ opcodeMap,
      q.fixed &&& opcodeMask = q.fixed ∧ q.mask &&& opcodeMask = opcodeMask := by decide
  obtain ⟨top, covers⟩ := rows r hr
  rw [← and_opcodeMask top, ← covers, ← BitVec.and_assoc, show w &&& r.mask = r.fixed from h, top]

/-- Settles O3: the row of the word's opcode decides the answer, and a mnemonic names one row. -/
theorem decoderSelectsTheTableRow : Obligations.DecoderSelectsTheTableRow := by
  intro w r hr
  constructor
  · intro sel
    obtain ⟨-, answer⟩ | ⟨unselected, -⟩ := decode_of_row hr (opcode_of_selects hr sel)
    · exact answer
    · exact absurd sel unselected
  · rintro ⟨i, hd, hi⟩
    obtain ⟨q, hq, -, ⟨sel, j, hj, name⟩ | ⟨-, refused⟩⟩ | ⟨-, refused⟩ := decode_cases w
    · obtain rfl : j = i := Except.ok.inj (hj.symm.trans hd)
      rwa [row_eq_of_mnemonic_eq hr hq (hi.symm.trans name)]
    · cases hd.symm.trans refused
    · cases hd.symm.trans refused

/-- Settles O4: the decoder's three answers exclude each other, and so do their causes. -/
theorem decoderRefusesByCause : Obligations.DecoderRefusesByCause := by
  intro w
  simp only [ne_eq, shiftRight_eq_iff_opcode_eq]
  refine ⟨⟨fun unknown r hr hop => ?_, decode_unknown⟩, ⟨fun reserved => ?_, ?_⟩⟩
  · obtain ⟨-, i, ok, -⟩ | ⟨-, reserved⟩ := decode_of_row hr hop
    · cases unknown.symm.trans ok
    · cases unknown.symm.trans reserved
  · obtain ⟨r, hr, hop, ⟨-, i, ok, -⟩ | ⟨unselected, -⟩⟩ | ⟨-, unknown⟩ := decode_cases w
    · cases reserved.symm.trans ok
    · exact ⟨r, hr, hop, unselected⟩
    · cases reserved.symm.trans unknown
  · rintro ⟨r, hr, hop, unselected⟩
    obtain ⟨sel, -⟩ | ⟨-, reserved⟩ := decode_of_row hr hop
    · exact absurd sel unselected
    · exact reserved

/-- Settles O5: the decoder computes on each word. -/
theorem sampleWordsDecode : Obligations.SampleWordsDecode :=
  ⟨rfl, rfl, rfl, rfl, rfl, rfl, rfl, rfl, rfl, rfl, rfl, rfl, rfl, rfl⟩

end Sys2Proof
end

section
/-! SUPPORT. The assembler's pseudo-instructions (30_encoding.md R121), and the ranges of the results: fields, calendar count and texts (30_encoding.md R126). -/

namespace Sys2Proof.Machine

/-- Settles O6: the assembler computes on each line. -/
theorem pseudoInstructionsExpand : Obligations.PseudoInstructionsExpand := by
  unfold Obligations.PseudoInstructionsExpand
  decide

/-! The fields (42_field_accessors.md R182, R183). -/

theorem fieldValue_le {b m : Byte} {lo hi : Nat} (h : lo ≤ hi) : fieldValue b m lo hi ≤ hi :=
  clamp_le h

theorem le_fieldValue {b m : Byte} {lo hi : Nat} (h : lo ≤ hi) : lo ≤ fieldValue b m lo hi :=
  le_clamp h

theorem le_yearValue (b : Byte) : 2000 ≤ yearValue b := Nat.le_add_right 2000 _

theorem yearValue_le (b : Byte) : yearValue b ≤ 2099 :=
  Nat.add_le_add_left (fieldValue_le (by decide)) 2000

theorem monthValue_le (m : MonthMask) (b : Byte) : monthValue m b ≤ 12 := fieldValue_le (by decide)

theorem dateValue_le (b : Byte) : dateValue b ≤ 31 := fieldValue_le (by decide)

theorem hourValue_le (b : Byte) : hourValue b ≤ 23 := fieldValue_le (by decide)

theorem minuteValue_le (b : Byte) : minuteValue b ≤ 59 := fieldValue_le (by decide)

theorem secondValue_le (b : Byte) : secondValue b ≤ 59 := fieldValue_le (by decide)

theorem decimalToBcd_byte_le (v : Byte) : decimalToBcd v.toNat ≤ 405 := by
  have := v.isLt
  unfold decimalToBcd
  omega

/-! The calendar count lies between two New Years (44_timestamp.md R243, R249). -/

theorem yearsSeconds_mono {m n : Nat} (h : m ≤ n) : yearsSeconds m ≤ yearsSeconds n := by
  induction h with
  | refl => exact Nat.le_refl _
  | step _ ih => exact ih.trans (Nat.le_add_right _ _)

theorem monthsSeconds_until_december (y : Nat) :
    monthsSeconds y 11 + 86400 * 31 = yearSeconds y := by
  simp only [monthsSeconds, daysInMonth, yearSeconds]
  cases isLeap y <;> rfl

theorem yearsSeconds_le_epochSeconds (Y M D h mi s : Nat) :
    yearsSeconds (Y - epochYear) ≤ epochSeconds Y M D h mi s := by
  unfold epochSeconds
  omega

/-- No month has more than 31 days before it is over, so the latest count of a year is December's. -/
theorem epochSeconds_lt_next_year {Y M D h mi s : Nat} (hY : epochYear ≤ Y) (hM : M ≤ 12)
    (hD : D ≤ 31) (hh : h ≤ 23) (hmi : mi ≤ 59) (hs : s ≤ 59) :
    epochSeconds Y M D h mi s < yearsSeconds (Y - epochYear + 1) := by
  have months := monthsSeconds_mono Y (show M - 1 ≤ 11 by omega)
  have december := monthsSeconds_until_december Y
  rw [yearsSeconds, Nat.add_sub_cancel' hY]
  unfold epochSeconds
  omega

/-- From the first second of 2000 to the last of 2099. -/
theorem epochSeconds_of_century {Y M D h mi s : Nat} (hlo : 2000 ≤ Y) (hhi : Y ≤ 2099) (hM : M ≤ 12)
    (hD : D ≤ 31) (hh : h ≤ 23) (hmi : mi ≤ 59) (hs : s ≤ 59) :
    946684800 ≤ epochSeconds Y M D h mi s ∧ epochSeconds Y M D h mi s ≤ 4102444799 := by
  have first : yearsSeconds 30 ≤ yearsSeconds (Y - epochYear) :=
    yearsSeconds_mono (Nat.sub_le_sub_right hlo 1970)
  have last : yearsSeconds (Y - epochYear + 1) ≤ yearsSeconds 130 :=
    yearsSeconds_mono (Nat.succ_le_succ (Nat.sub_le_sub_right hhi 1970))
  have after := yearsSeconds_le_epochSeconds Y M D h mi s
  have before := epochSeconds_lt_next_year (Nat.le_trans (by decide) hlo) hM hD hh hmi hs
  rw [yearsSeconds_eq (by decide)] at first
  rw [yearsSeconds_eq (n := 130) (by decide)] at last
  omega

/-! The texts (43_string_format.md R221, R222; 42_field_accessors.md R189). -/

theorem timeText_length (h m s : Nat) : (timeText h m s).length = 8 := rfl

theorem dec_short_length {n : Nat} (h : n ≤ 99) : 1 ≤ (dec n).length ∧ (dec n).length ≤ 2 := by
  rw [dec_short h]
  split_ifs <;> simp [twoDigits]

theorem dateText_length {d mo v : Nat} (hd : d ≤ 99) (hmo : mo ≤ 99) (hv : v ≤ 99) :
    8 ≤ (dateText d mo (2000 + v)).length ∧ (dateText d mo (2000 + v)).length ≤ 10 := by
  have day := dec_short_length hd
  have month := dec_short_length hmo
  have year : (dec (2000 + v)).length = 4 := by rw [dec_year hv]; rfl
  simp only [dateText, List.length_append, List.length_singleton]
  omega

theorem dayName_succ (names : Vector Text 7) (j : Fin 7) : dayName names (j + 1) = names[j] := by
  simp [dayName]

theorem textOf_dayname {s : State} {j : Fin 7} (h : dayNameIndex (s.tmp 0) = j + 1) :
    textOf s .dayname = s.cfg.dayNames[j] := by
  rw [textOf, h, if_pos (by omega), dayName_succ]

/-! The response has the result itself, as long as it fits 32 bits (30_encoding.md R125). -/

theorem okResponse_value {v : Nat} (x : Text) (h : v < 2 ^ 32) :
    (okResponse v x).value.toNat = v :=
  (BitVec.toNat_ofNat v 32).trans (Nat.mod_eq_of_lt h)

theorem okResponse_value_le {v hi : Nat} (x : Text) (h : v ≤ hi) :
    (okResponse v x).value.toNat ≤ hi :=
  (BitVec.toNat_ofNat v 32).trans_le ((Nat.mod_le v _).trans h)

theorem okResponse_between {v lo hi : Nat} (x : Text) (hlo : lo ≤ v) (hhi : v ≤ hi)
    (fits : hi < 2 ^ 32) :
    lo ≤ (okResponse v x).value.toNat ∧ (okResponse v x).value.toNat ≤ hi ∧
      (okResponse v x).text = x := by
  rw [okResponse_value x (hhi.trans_lt fits)]
  exact ⟨hlo, hhi, rfl⟩

/-- Settles O30: the response is `finishOf`'s, and its result lies in the range of its field, its byte,
its calendar or its text. -/
theorem resultsStayInTheirRanges : Obligations.ResultsStayInTheirRanges := by
  intro i s t busy done legal h
  obtain rfl : finishOf i s = t := Host.Outcome.next.inj ((exec_responds busy done).symm.trans h)
  refine ⟨okResponse (valueOf s i) (textOf s i), rfl, rfl, rfl, ?_⟩
  cases i with
  | rdreg | rdstat | rdctl | temph | templ =>
    exact ⟨okResponse_value_le _ (Nat.le_of_lt_succ (s.tmp 0).isLt), rfl⟩
  | wrreg | setalm | aie | aclr | gint | setdt => exact ⟨rfl, rfl⟩
  | bcd2dec v => exact ⟨okResponse_value_le _ (bcdToDecimal_le v), rfl⟩
  | dec2bcd v => exact ⟨okResponse_value_le _ (decimalToBcd_byte_le v), rfl⟩
  | year => exact okResponse_between _ (le_yearValue _) (yearValue_le _) (by decide)
  | month | date | wday =>
    exact okResponse_between _ (le_fieldValue (by decide)) (fieldValue_le (by decide)) (by decide)
  | dayname =>
    have hlo : 1 ≤ dayNameIndex (s.tmp 0) := le_fieldValue (by decide)
    have hhi : dayNameIndex (s.tmp 0) ≤ 8 := fieldValue_le (by decide)
    have value : (okResponse (valueOf s .dayname) (textOf s .dayname)).value.toNat =
        dayNameIndex (s.tmp 0) := okResponse_value _ (hhi.trans_lt (by decide))
    simp only [value]
    exact ⟨hlo, hhi, fun _ => textOf_dayname⟩
  | hour => exact ⟨okResponse_value_le _ (hourValue_le _), rfl⟩
  | min => exact ⟨okResponse_value_le _ (minuteValue_le _), rfl⟩
  | sec => exact ⟨okResponse_value_le _ (secondValue_le _), rfl⟩
  | timestr => exact ⟨rfl, timeText_length ..⟩
  | datestr =>
    exact ⟨rfl, dateText_length ((dateValue_le _).trans (by decide))
      ((monthValue_le _ _).trans (by decide)) (fieldValue_le (by decide))⟩
  | unixts =>
    obtain ⟨hlo, hhi⟩ := epochSeconds_of_century (le_yearValue (s.tmp 0)) (yearValue_le _)
      (monthValue_le s.cfg.monthMask (s.tmp 1)) (dateValue_le (s.tmp 2)) (hourValue_le (s.tmp 3))
      (minuteValue_le (s.tmp 4)) (secondValue_le (s.tmp 5))
    exact okResponse_between _ hlo hhi (by decide)
  | epoch y mo d h mi sc =>
    simp only [legalOperands, Bool.and_eq_true, decide_eq_true_eq] at legal
    obtain ⟨⟨⟨⟨⟨⟨⟨⟨hY, hY'⟩, -⟩, hM⟩, -⟩, hD⟩, hh⟩, hmi⟩, hs⟩ := legal
    obtain ⟨hlo, hhi⟩ := epochSeconds_of_century hY hY' hM hD hh hmi hs
    exact okResponse_between _ hlo hhi (by decide)
  | leap y => exact ⟨okResponse_value_le _ (by simp only [valueOf]; split_ifs <;> decide), rfl⟩

end Sys2Proof.Machine
end

section
/-! SUPPORT. Raw register access: RDREG at any address, and the commands that write one block and
answer `OK 0` (40_register_access.md R141, R142; 45_alarm_config.md R272; 48_datetime_set.md R322). -/

namespace Sys2Proof.Machine

/-- RDREG answers with the byte the chip returns once its pointer is at the address, and changes no
register. -/
theorem rdreg_answers_readByte (a : Byte) {s : State} (idle : s.Idle) (good : s.BusGood) :
    ReadsAndAnswers (.rdreg a) s (okResponse (readByte { s with ap := a }).toNat []) := by
  have byte : (runTxns (readRegister a) (accept (.rdreg a) s)).tmp 0 = readByte { s with ap := a } :=
    rfl
  refine ⟨_, completes_fixed rfl idle good rfl, ?_, ?_⟩
  · simp [State.Answered, finishOf, planOf, valueOf, textOf, byte, okResponse]
  · simp [finishOf, planOf, readRegister]

/-- Settles O33: in the map the byte returned is the register's, and above it the reference device
returns `0xFF`. -/
theorem rdregReadsAnyAddress : Obligations.RdregReadsAnyAddress := by
  intro a s idle good
  refine ⟨readByte { s with ap := a }, rdreg_answers_readByte a idle good,
    fun inside => readByte_in_map (s := { s with ap := a }) inside, fun above ref => ?_⟩
  rw [readByte_reference (s := { s with ap := a }) ref]
  exact if_neg (Nat.not_le_of_lt above)

/-- The rule of the command is one block write, and its answer is `OK 0`. -/
structure SendsOneBlock (i : Instr) (a : Byte) (data : List Byte) : Prop where
  plan : ∀ s, planOf s i = [.write a data]
  answer : ∀ s, finishOf i s = s.answered (okResponse 0 [])

theorem wrreg_sendsOneBlock (a v : Byte) : SendsOneBlock (.wrreg a v) a [v] :=
  ⟨fun _ => rfl, fun _ => rfl⟩

theorem setalm_sendsOneBlock (n : AlarmName) (m : AlarmMode) (d wd h mi : Nat) :
    SendsOneBlock (.setalm n m d wd h mi) (alarmBase n)
      [bcdByte mi, alarmHourByte m h, dayDateByte m d wd] :=
  ⟨fun _ => rfl, fun _ => rfl⟩

theorem setdt_sendsOneBlock (y mo d wd h mi sc : Nat) :
    SendsOneBlock (.setdt y mo d wd h mi sc) RA.second
      ([sc, mi, h, wd, d, mo, y - yearBase].map bcdByte) :=
  ⟨fun _ => rfl, fun _ => rfl⟩

section SendsOneBlock
variable {i : Instr} {a : Byte} {data : List Byte} {s : State} (block : SendsOneBlock i a data)
include block

theorem SendsOneBlock.busCount : i.busCount = 1 := by
  rw [← planOf_length State.reset i, block.plan]
  rfl

theorem SendsOneBlock.exec_writes (h : s.InFlight 0 []) (good : s.BusGood) :
    exec i s = .next (completeTxn (.write a data) none s) := by
  obtain ⟨busy, free, done, -⟩ := h
  exact exec_transacts busy free good (by rw [block.plan, done]; rfl)

theorem SendsOneBlock.exec_answers {ts : List Byte} (h : s.InFlight 1 ts) :
    exec i s = .next (s.answered (okResponse 0 [])) := by
  obtain ⟨busy, -, done, -⟩ := h
  rw [exec_responds busy (by rw [block.busCount, done]), block.answer]

/-- The whole command on a good bus: the registers hold what the block write leaves. -/
theorem SendsOneBlock.completes (legal : legalOperands i = true) (idle : s.Idle) (good : s.BusGood) :
    ∃ t, Completes i s t ∧ s.Answered t (okResponse 0 []) ∧
      t.mem = (busWrite a data (accept i s)).mem := by
  have writes := block.exec_writes (s := accept i s) ⟨rfl, rfl, rfl, rfl⟩ good
  have answers := block.exec_answers (s := completeTxn (.write a data) none (accept i s)) (ts := [])
    (by simp [State.InFlight])
  refine ⟨(completeTxn (.write a data) none (accept i s)).answered (okResponse 0 []), ?_, ?_, ?_⟩
  · rw [Completes, block.busCount, execFor_succ (exec_accepts idle legal), execFor_succ writes,
      execFor_succ answers]
    rfl
  · simp [State.Answered, State.answered]
  · simp [State.answered]

end SendsOneBlock

/-- Settles O27: the three commands send one block each, and the block is its one transaction. -/
theorem settersSendOneBlock : Obligations.SettersSendOneBlock := by
  intro s i a data setter
  have block : SendsOneBlock i a data := by
    obtain ⟨v, rfl, rfl⟩ | ⟨n, m, d, wd, h, mi, rfl, rfl, rfl⟩ |
      ⟨y, mo, d, wd, h, mi, sc, rfl, rfl, rfl⟩ := setter
    · exact wrreg_sendsOneBlock a v
    · cases n <;> exact setalm_sendsOneBlock _ m d wd h mi
    · exact setdt_sendsOneBlock y mo d wd h mi sc
  refine ⟨fun flight good => ⟨_, block.exec_writes flight good, ?_, by simp, by simp [devAddr]⟩,
    block.exec_answers⟩
  simpa [State.InFlight] using flight

/-- Settles O34: the block of WRREG is one byte, which `busWrite_one` finds in its register, and RDREG
answers with that register. -/
theorem rdregReadsWhatWrregWrote : Obligations.RdregReadsWhatWrregWrote := by
  intro a v s idle good inside keeps
  obtain ⟨t, run, answered, mem⟩ := (wrreg_sendsOneBlock a v).completes rfl idle good
  have written : t.regByte a.toNat = v :=
    (regByte_congr mem _).trans (busWrite_one (s := accept (.wrreg a v) s) v inside keeps)
  have others : ∀ c, c ≠ a.toNat → t.regByte c = s.regByte c := fun c other =>
    (regByte_congr mem c).trans
      (storeByte_other (s := { accept (.wrreg a v) s with ap := a }) other (.inl (inMap_iff.2 inside)))
  have ⟨idle', _, _, _, _, _, answers⟩ := answered
  have reads := rdreg_readsAndAnswers inside idle' (answers.trans good)
  rw [written] at reads
  exact ⟨t, run, answered, written, others, reads⟩

end Sys2Proof.Machine
end

section
/-! SUPPORT. The BCD codec, digit by digit, and the commands that answer without bus traffic (41_bcd_codec.md R160 to R164; 44_timestamp.md R240, R246, R247). -/

namespace Sys2Proof.Machine

/-! The laws of the codec (41_bcd_codec.md R164). -/

theorem decimalToBcd_lt {d : Nat} (h : d ≤ 159) : decimalToBcd d < 256 := by
  unfold decimalToBcd
  omega

/-- Up to 159 the tens fit the upper four bits of the byte. -/
theorem bcdToDecimal_bcdByte_of_fits {d : Nat} (h : d ≤ 159) : bcdToDecimal (bcdByte d) = d := by
  rw [bcdToDecimal, bcdByte, BitVec.toNat_ofNat, Nat.mod_eq_of_lt (decimalToBcd_lt h), decimalToBcd]
  omega

/-- A byte of two decimal digits is encoded again from its number; a lower digit above 9 would carry
into the tens. -/
theorem decimalToBcd_bcdToDecimal {b : Byte} (units : b.toNat % 16 ≤ 9) :
    decimalToBcd (bcdToDecimal b) = b.toNat := by
  unfold decimalToBcd bcdToDecimal
  omega

/-- Bit `k` of the tens is bit `4 + k` of the BCD number. -/
theorem decimalToBcd_testBit_tens (d k : Nat) :
    (decimalToBcd d).testBit (4 + k) = (d / 10).testBit k := by
  have tens : decimalToBcd d / 2 ^ 4 = d / 10 := by
    unfold decimalToBcd
    omega
  rw [Nat.add_comm, Nat.testBit_add, tens]

theorem decimalToBcd_testBit_seven {d : Nat} (h : d ≤ 99) :
    (decimalToBcd d).testBit 7 = true ↔ 80 ≤ d := by
  rw [decimalToBcd_testBit_tens d 3, Nat.testBit_eq_decide_div_mod_eq, decide_eq_true_eq]
  omega

theorem decimalToBcd_testBit_six {d : Nat} (h : d ≤ 99) :
    (decimalToBcd d).testBit 6 = true ↔ 4 ≤ d / 10 ∧ d / 10 ≤ 7 := by
  rw [decimalToBcd_testBit_tens d 2, Nat.testBit_eq_decide_div_mod_eq, decide_eq_true_eq]
  omega

theorem decimalToBcd_testBit_seven_clear {d : Nat} (h : d < 80) :
    (decimalToBcd d).testBit 7 = false := by
  rw [← Bool.not_eq_true, decimalToBcd_testBit_seven (by omega)]
  omega

theorem decimalToBcd_testBit_six_clear {d : Nat} (h : d < 40) :
    (decimalToBcd d).testBit 6 = false := by
  rw [← Bool.not_eq_true, decimalToBcd_testBit_six (by omega)]
  omega

theorem decimalToBcd_digit {d : Nat} (h : d ≤ 9) : decimalToBcd d = d := by
  unfold decimalToBcd
  omega

/-- Settles O48, clause by clause from the laws of the codec. -/
theorem codecLaws : Obligations.CodecLaws := by
  refine ⟨fun _ => bcdToDecimal_bcdByte,
    fun _ h => ⟨decimalToBcd_lt h, bcdToDecimal_bcdByte_of_fits h⟩,
    ⟨fun _ _ => decimalToBcd_bcdToDecimal, rfl⟩, fun d h => ?_⟩
  have upTo39 (low : d < 40) :
      (decimalToBcd d).testBit 7 = false ∧ (decimalToBcd d).testBit 6 = false :=
    ⟨decimalToBcd_testBit_seven_clear (by omega), decimalToBcd_testBit_six_clear low⟩
  refine ⟨decimalToBcd_testBit_seven h, decimalToBcd_testBit_six h,
    fun minute => decimalToBcd_testBit_seven_clear (by omega),
    fun date => upTo39 (by omega), fun hour => upTo39 (by omega), fun weekday => ?_⟩
  rw [decimalToBcd_digit (by omega)]
  omega

/-! The commands without bus traffic. -/

/-- A command that draws no free value answers with its result and its text. -/
theorem finishOf_eq_answered {i : Instr} {s : State} (h : drawsOf s i = 0) :
    finishOf i s = s.answered (okResponse (valueOf s i) (textOf s i)) := by
  rw [finishOf, h]
  rfl

/-- With all its transactions done, a command that draws no free value answers. -/
theorem State.InFlight.exec_answers {i : Instr} {s : State} {ts : List Byte}
    (h : s.InFlight i.busCount ts) (draws : drawsOf s i = 0) :
    exec i s = .next (s.answered (okResponse (valueOf s i) (textOf s i))) := by
  obtain ⟨busy, -, done, -⟩ := h
  rw [exec_responds busy done.ge, finishOf_eq_answered draws]

theorem isLeap_iff {y : Nat} :
    isLeap y = true ↔ y % 4 = 0 ∧ (y % 100 ≠ 0 ∨ y % 400 = 0) := by
  simp [isLeap]

/-- Settles O24: none of the four has a transaction to make, so each answers its result at once. -/
theorem pureCommandsAnswer : Obligations.PureCommandsAnswer := by
  intro s v y mo d h mi sc flight
  have answer (i : Instr) (pure : i.busCount = 0) (draws : drawsOf s i = 0) :
      exec i s = .next (s.answered (okResponse (valueOf s i) (textOf s i))) :=
    State.InFlight.exec_answers (pure ▸ flight) draws
  refine ⟨answer (.bcd2dec v) rfl rfl, answer (.dec2bcd v) rfl rfl, ?_,
    answer (.epoch y mo d h mi sc) rfl rfl⟩
  simp only [answer (.leap y) rfl rfl, valueOf, textOf, isLeap_iff]

end Sys2Proof.Machine
end

section
/-! SUPPORT. The field accessors and the raw reads: one register read, and a number made from its byte (42_field_accessors.md R180 to R196; 40_register_access.md R141). -/

namespace Sys2Proof.Machine

theorem State.InFlight.tmp_zero {s : State} {n : Nat} {b : Byte} {ts : List Byte}
    (h : s.InFlight n (b :: ts)) : s.tmp 0 = b := by
  obtain ⟨-, -, -, temps⟩ := h
  simp [State.tmp, temps]

/-- The commands of two transactions read one register, whatever has been read before, and have no
operand to check (30_encoding.md R110). -/
theorem only_reads_of_busCount {i : Instr} (count : i.busCount = 2) :
    (∀ s, planOf s i = readRegisters (registersRead i)) ∧ fixedPlan i = true ∧
      legalOperands i = true := by
  cases i <;> cases count <;> exact ⟨fun _ => rfl, rfl, rfl⟩

/-- On a good bus a command of two transactions answers from the byte of its register and changes no
register. -/
theorem readsAndAnswers_of_busCount {i : Instr} {a : Byte} {s : State} (count : i.busCount = 2)
    (reads : registersRead i = [a]) (inside : a.toNat ≤ regTop) (idle : s.Idle) (good : s.BusGood) :
    ∃ u : State, u.tmp 0 = s.regByte a.toNat ∧ u.cfg = s.cfg ∧
      ReadsAndAnswers i s (okResponse (valueOf u i) (textOf u i)) := by
  obtain ⟨plan, fixed, legal⟩ := only_reads_of_busCount count
  obtain ⟨u, temps, cfg, run⟩ :=
    readsAndAnswers_of_reads plan fixed (by simpa [reads] using inside) legal idle good
  exact ⟨u, by simp [State.tmp, temps, reads], cfg, run⟩

/-- The family of 42_field_accessors.md R180: the command reads exactly the register `a` and answers
with the number `value` makes of its byte, under the month mask in force. -/
structure AnswersFromByte (i : Instr) (a : Byte) (value : MonthMask → Byte → Nat) : Prop where
  count : i.busCount = 2
  reads : registersRead i = [a]
  number : ∀ s, valueOf s i = value s.cfg.monthMask (s.tmp 0)
  text : ∀ s, textOf s i = []
  draws : ∀ s, drawsOf s i = 0

section AnswersFromByte
variable {i : Instr} {a : Byte} {value : MonthMask → Byte → Nat} {s : State} {v : Nat}
  (row : AnswersFromByte i a value)
include row

/-- The response step, once the byte has been read. -/
theorem AnswersFromByte.exec_answers {b : Byte} (flight : s.InFlight 2 [b])
    (hv : value s.cfg.monthMask b = v) : exec i s = .next (s.answered (okResponse v [])) := by
  rw [State.InFlight.exec_answers (row.count ▸ flight) (row.draws s), row.number, row.text,
    flight.tmp_zero, hv]

/-- The whole command on a good bus. -/
theorem AnswersFromByte.readsAndAnswers (inside : a.toNat ≤ regTop) (idle : s.Idle)
    (good : s.BusGood) (hv : value s.cfg.monthMask (s.regByte a.toNat) = v) :
    ReadsAndAnswers i s (okResponse v []) := by
  obtain ⟨u, byte, cfg, run⟩ :=
    readsAndAnswers_of_busCount row.count row.reads inside idle good
  rwa [row.number, row.text, byte, cfg, hv] at run

end AnswersFromByte

/-! The table of the accessors (42_field_accessors.md R183), and RDREG. -/

theorem year_answersFromByte : AnswersFromByte .year RA.year (fun _ => yearValue) :=
  ⟨rfl, rfl, fun _ => rfl, fun _ => rfl, fun _ => rfl⟩

theorem month_answersFromByte : AnswersFromByte .month RA.month monthValue :=
  ⟨rfl, rfl, fun _ => rfl, fun _ => rfl, fun _ => rfl⟩

theorem date_answersFromByte : AnswersFromByte .date RA.date (fun _ => dateValue) :=
  ⟨rfl, rfl, fun _ => rfl, fun _ => rfl, fun _ => rfl⟩

theorem wday_answersFromByte : AnswersFromByte .wday RA.day (fun _ => weekdayValue) :=
  ⟨rfl, rfl, fun _ => rfl, fun _ => rfl, fun _ => rfl⟩

theorem hour_answersFromByte : AnswersFromByte .hour RA.hour (fun _ => hourValue) :=
  ⟨rfl, rfl, fun _ => rfl, fun _ => rfl, fun _ => rfl⟩

theorem min_answersFromByte : AnswersFromByte .min RA.minute (fun _ => minuteValue) :=
  ⟨rfl, rfl, fun _ => rfl, fun _ => rfl, fun _ => rfl⟩

theorem sec_answersFromByte : AnswersFromByte .sec RA.second (fun _ => secondValue) :=
  ⟨rfl, rfl, fun _ => rfl, fun _ => rfl, fun _ => rfl⟩

theorem rdstat_answersFromByte : AnswersFromByte .rdstat RA.status (fun _ => BitVec.toNat) :=
  ⟨rfl, rfl, fun _ => rfl, fun _ => rfl, fun _ => rfl⟩

theorem rdctl_answersFromByte : AnswersFromByte .rdctl RA.control (fun _ => BitVec.toNat) :=
  ⟨rfl, rfl, fun _ => rfl, fun _ => rfl, fun _ => rfl⟩

theorem temph_answersFromByte : AnswersFromByte .temph RA.tempHi (fun _ => BitVec.toNat) :=
  ⟨rfl, rfl, fun _ => rfl, fun _ => rfl, fun _ => rfl⟩

theorem templ_answersFromByte : AnswersFromByte .templ RA.tempLo (fun _ => BitVec.toNat) :=
  ⟨rfl, rfl, fun _ => rfl, fun _ => rfl, fun _ => rfl⟩

theorem rdreg_answersFromByte (a : Byte) : AnswersFromByte (.rdreg a) a (fun _ => BitVec.toNat) :=
  ⟨rfl, rfl, fun _ => rfl, fun _ => rfl, fun _ => rfl⟩

/-- Settles O21, row by row of the accessor table; the mask `0xFF` of MONTH changes nothing. -/
theorem accessorsAnswer : Obligations.AccessorsAnswer := by
  intro s b flight
  refine ⟨year_answersFromByte.exec_answers flight (yearValue_eq b), fun unmasked => ?_,
    fun masked => ?_, date_answersFromByte.exec_answers flight (dateValue_eq b),
    wday_answersFromByte.exec_answers flight (weekdayValue_eq b),
    hour_answersFromByte.exec_answers flight (hourValue_eq b),
    min_answersFromByte.exec_answers flight (minuteValue_eq b),
    sec_answersFromByte.exec_answers flight (secondValue_eq b)⟩
  · exact month_answersFromByte.exec_answers flight (unmasked ▸ fieldValue_unmasked b 1 12)
  · exact month_answersFromByte.exec_answers flight (masked ▸ rfl)

/-- Settles O22: the number is the byte itself. -/
theorem rawReadsAnswer : Obligations.RawReadsAnswer := fun _ _ a flight =>
  ⟨rdstat_answersFromByte.exec_answers flight rfl, rdctl_answersFromByte.exec_answers flight rfl,
    temph_answersFromByte.exec_answers flight rfl, templ_answersFromByte.exec_answers flight rfl,
    (rdreg_answersFromByte a).exec_answers flight rfl⟩

/-- Settles O23: a named index draws no free value and answers with its name; above 7 the clamp leaves
8, and the one free value drawn is the text. -/
theorem daynameAnswers : Obligations.DaynameAnswers := by
  rintro s b k flight rfl
  have index : dayNameIndex (s.tmp 0) = clamp (bcdToDecimal b) 1 8 := by
    rw [flight.tmp_zero, dayNameIndex_eq]
  refine ⟨fun j hj => ?_, fun above => ⟨textOf s .dayname, s.draws + drawsOf s .dayname, ?_⟩⟩
  · have named : dayNameIndex (s.tmp 0) = j + 1 := index.trans hj
    rw [State.InFlight.exec_answers (i := .dayname) flight (if_pos (by omega)),
      textOf_dayname named, valueOf, index]
  · have eight : valueOf s .dayname = 8 := index.trans ((clamp_le (by decide)).antisymm above)
    obtain ⟨busy, -, done, -⟩ := flight
    rw [exec_responds (i := .dayname) busy done.ge, ← eight]
    rfl

/-- Settles O32: each command reads its own register, and the tables of the values say what it makes
of the byte; DAYNAME's text is the name its index has. -/
theorem accessorsReadTheirRegister : Obligations.AccessorsReadTheirRegister := by
  intro s idle good
  refine ⟨year_answersFromByte.readsAndAnswers (by decide) idle good (yearValue_eq _),
    month_answersFromByte.readsAndAnswers (by decide) idle good (monthValue_eq _ _),
    date_answersFromByte.readsAndAnswers (by decide) idle good (dateValue_eq _),
    wday_answersFromByte.readsAndAnswers (by decide) idle good (weekdayValue_eq _), ?_,
    hour_answersFromByte.readsAndAnswers (by decide) idle good (hourValue_eq _),
    min_answersFromByte.readsAndAnswers (by decide) idle good (minuteValue_eq _),
    sec_answersFromByte.readsAndAnswers (by decide) idle good (secondValue_eq _),
    rdstat_answersFromByte.readsAndAnswers (by decide) idle good rfl,
    rdctl_answersFromByte.readsAndAnswers (by decide) idle good rfl,
    temph_answersFromByte.readsAndAnswers (by decide) idle good rfl,
    templ_answersFromByte.readsAndAnswers (by decide) idle good rfl⟩
  obtain ⟨u, byte, cfg, run⟩ :=
    readsAndAnswers_of_busCount (i := .dayname) rfl rfl (by decide) idle good
  have index : dayNameIndex (u.tmp 0) = clamp (bcdToDecimal (s.regByte 0x03)) 1 8 := by
    rw [byte, dayNameIndex_eq]
    rfl
  refine ⟨textOf u .dayname, ?_, fun j hj => ?_⟩
  · rwa [valueOf, index] at run
  · rw [textOf_dayname (index.trans hj), cfg]

end Sys2Proof.Machine
end

section
/-! SUPPORT. The texts of TIMESTR and DATESTR, character by character (43_string_format.md R220 to R222; 00_scope.md R9). -/

namespace Sys2Proof.Machine

/-- The numerals of `dateText` in digits: date and month as short as they are, and `20` before the two
digits of the year. -/
theorem dateText_eq {d mo v : Nat} (hd : d ≤ 99) (hmo : mo ≤ 99) (hv : v ≤ 99) :
    dateText d mo (2000 + v) =
      (if d < 10 then [digit d] else twoDigits d) ++ [dot] ++
        (if mo < 10 then [digit mo] else twoDigits mo) ++ [dot] ++ [0x32, 0x30] ++ twoDigits v := by
  rw [dateText, dec_short hd, dec_short hmo, dec_year hv, ← List.append_assoc]

section ThreeBytesRead
variable {s : State} {b0 b1 b2 : Byte} (temps : s.temps = [b0, b1, b2])
include temps

theorem tmp_of_three_temps : s.tmp 0 = b0 ∧ s.tmp 1 = b1 ∧ s.tmp 2 = b2 := by
  simp [State.tmp, temps]

theorem textOf_timestr :
    textOf s .timestr = timeText (clamp (bcdToDecimal b0) 0 23) (clamp (bcdToDecimal b1) 0 59)
      (clamp (bcdToDecimal b2) 0 59) := by
  simp only [textOf, tmp_of_three_temps temps, hourValue_eq, minuteValue_eq, secondValue_eq]

/-- The month is masked with `0x1F` whatever the parameter `MONTH_MASK` says. -/
theorem textOf_datestr :
    textOf s .datestr = dateText (clamp (bcdToDecimal b0) 1 31)
      (clamp (bcdToDecimal (b1 &&& 0x1F)) 1 12) (2000 + clamp (bcdToDecimal b2) 0 99) := by
  simp only [textOf, tmp_of_three_temps temps, dateValue_eq, monthValue_eq, yearValue_eq,
    monthMaskByte]

/-- The clamps keep date, month and year to two digits, so `dateText_eq` spells the text out. -/
theorem textOf_datestr_digits {d mo v : Nat} (hd : d = clamp (bcdToDecimal b0) 1 31)
    (hmo : mo = clamp (bcdToDecimal (b1 &&& 0x1F)) 1 12) (hv : v = clamp (bcdToDecimal b2) 0 99) :
    textOf s .datestr = (if d < 10 then [digit d] else twoDigits d) ++ [dot] ++
      (if mo < 10 then [digit mo] else twoDigits mo) ++ [dot] ++ [0x32, 0x30] ++ twoDigits v := by
  have day : d ≤ 31 := hd ▸ clamp_le (by decide)
  have month : mo ≤ 12 := hmo ▸ clamp_le (by decide)
  have year : v ≤ 99 := hv ▸ clamp_le (by decide)
  rw [textOf_datestr temps, ← hd, ← hmo, ← hv, dateText_eq (by omega) (by omega) year]

end ThreeBytesRead

/-- Settles O25: with the six transactions done both commands answer `0` and their text, made of the
three bytes read. -/
theorem stringsAnswer : Obligations.StringsAnswer := by
  intro s b0 b1 b2 flight
  have ⟨_, _, _, temps⟩ := flight
  constructor
  · have answer := State.InFlight.exec_answers (i := .timestr) flight rfl
    rwa [textOf_timestr temps] at answer
  · have answer := State.InFlight.exec_answers (i := .datestr) flight rfl
    rwa [textOf_datestr_digits temps rfl rfl rfl] at answer

/-- Settles O35: the bytes read are those of the registers, in the order of each command's rule. -/
theorem stringsPrintTheRegisters : Obligations.StringsPrintTheRegisters := by
  intro s idle good
  constructor
  · obtain ⟨u, temps, -, run⟩ := readsAndAnswers_of_reads (i := .timestr) (fun _ => rfl) rfl
      (by decide) rfl idle good
    rwa [textOf_timestr temps] at run
  · obtain ⟨u, temps, -, run⟩ := readsAndAnswers_of_reads (i := .datestr) (fun _ => rfl) rfl
      (by decide) rfl idle good
    rwa [textOf_datestr_digits temps rfl rfl rfl] at run

end Sys2Proof.Machine
end

section
/-! SUPPORT. The calendar count: days of months and years, dates past the end of a month, its range, and UNIXTS over its six registers (44_timestamp.md R240 to R250). -/

namespace Sys2Proof.Machine

/-! A month passed, and a year passed (44_timestamp.md R243, R244). -/

theorem monthsSeconds_next {Y M : Nat} (h : 1 ≤ M) :
    monthsSeconds Y M = monthsSeconds Y (M - 1) + 86400 * daysInMonth Y M := by
  obtain ⟨m, rfl⟩ := Nat.exists_eq_add_of_le' h
  rfl

@[simp] theorem monthsSeconds_zero (Y : Nat) : monthsSeconds Y 0 = 0 := rfl

theorem yearsSeconds_next {Y : Nat} (h : epochYear ≤ Y) :
    yearsSeconds (Y + 1 - epochYear) = yearsSeconds (Y - epochYear) + yearSeconds Y := by
  rw [Nat.sub_add_comm h, yearsSeconds, Nat.add_sub_cancel' h]

theorem epochSeconds_past_month {Y M D : Nat} (h mi s : Nat) (hM : 1 ≤ M)
    (hD : daysInMonth Y M < D) :
    epochSeconds Y M D h mi s = epochSeconds Y (M + 1) (D - daysInMonth Y M) h mi s := by
  simp only [epochSeconds, Nat.add_sub_cancel, monthsSeconds_next hM]
  omega

theorem epochSeconds_past_december {Y D : Nat} (h mi s : Nat) (hY : epochYear ≤ Y) (hD : 31 < D) :
    epochSeconds Y 12 D h mi s = epochSeconds (Y + 1) 1 (D - 31) h mi s := by
  have december : monthsSeconds Y (12 - 1) + 86400 * 31 = yearSeconds Y :=
    monthsSeconds_until_december Y
  rw [epochSeconds, epochSeconds, yearsSeconds_next hY, Nat.sub_self, monthsSeconds_zero]
  omega

/-- Settles O52: the days of the month passed move from the date to the months, those of a December to
the years; EPOCH looks at the ranges of its operands alone. -/
theorem datesPastTheMonthCountOn : Obligations.DatesPastTheMonthCountOn :=
  ⟨fun _ _ _ h mi s hM _ hD => epochSeconds_past_month h mi s hM hD,
    fun _ _ h mi s hY hD => epochSeconds_past_december h mi s hY hD,
    by decide, by decide, fun _ idle => ⟨_, exec_accepts idle rfl, rfl⟩⟩

/-! The count in days (44_timestamp.md R240, R242, R250). -/

/-- The one century year in the range, 2000, is a leap year. -/
theorem isLeap_iff_of_century {Y : Nat} (hlo : 2000 ≤ Y) (hhi : Y ≤ 2099) :
    isLeap Y = true ↔ Y % 4 = 0 := by
  rw [isLeap_iff]
  omega

/-- The days of the first `n` months of a common year. -/
def commonMonthsDays (n : Nat) : Nat :=
  [0, 31, 59, 90, 120, 151, 181, 212, 243, 273, 304, 334].getD n 0

/-- The day more of a leap year counts once February is passed. -/
theorem monthsSeconds_eq (Y : Nat) {n : Nat} (h : n ≤ 11) :
    monthsSeconds Y n =
      86400 * (commonMonthsDays n + if 2 ≤ n ∧ isLeap Y = true then 1 else 0) := by
  induction n with
  | zero => rfl
  | succ n ih =>
    have next : n ≤ 10 := by omega
    rw [monthsSeconds, ih (by omega)]
    cases leap : isLeap Y
    all_goals interval_cases n <;> simp [daysInMonth, commonMonthsDays, leap]

/-- Settles O51: the years and the months of the accumulation, each counted in days. -/
theorem epochSecondsCountsDays : Obligations.EpochSecondsCountsDays := by
  intro Y M D h mi s hlo hhi hM hM' _
  have february : 2 ≤ M - 1 ↔ 2 < M := by omega
  have years : yearsSeconds (Y - epochYear) = 86400 * (365 * (Y - 1970) + (Y - 1969) / 4) := by
    rw [yearsSeconds_eq (by simp only [epochYear]; omega), epochYear,
      show Y - 1970 + 1 = Y - 1969 by omega]
  have months := monthsSeconds_eq Y (show M - 1 ≤ 11 by omega)
  simp only [february, isLeap_iff_of_century hlo hhi] at months
  rw [epochSeconds, years, months, commonMonthsDays]
  omega

/-! The threshold of a signed 32-bit number (44_timestamp.md R249). -/

theorem epochSeconds_lt_of_before_2038 {Y M D h mi s : Nat} (hlo : epochYear ≤ Y) (hY : Y < 2038)
    (hM : M ≤ 12) (hD : D ≤ 31) (hh : h ≤ 23) (hmi : mi ≤ 59) (hs : s ≤ 59) :
    epochSeconds Y M D h mi s < 2 ^ 31 :=
  calc epochSeconds Y M D h mi s
      < yearsSeconds (Y - epochYear + 1) := epochSeconds_lt_next_year hlo hM hD hh hmi hs
    _ ≤ yearsSeconds 68 := yearsSeconds_mono (by simp only [epochYear]; omega)
    _ < 2 ^ 31 := by rw [yearsSeconds_eq (by decide)]; decide

theorem le_epochSeconds_of_after_2038 {Y : Nat} (M D h mi s : Nat) (hY : 2038 < Y) :
    2 ^ 31 ≤ epochSeconds Y M D h mi s :=
  calc 2 ^ 31
      ≤ yearsSeconds 69 := by rw [yearsSeconds_eq (by decide)]; decide
    _ ≤ yearsSeconds (Y - epochYear) := yearsSeconds_mono (by simp only [epochYear]; omega)
    _ ≤ epochSeconds Y M D h mi s := yearsSeconds_le_epochSeconds Y M D h mi s

/-- In the threshold's year any month after January is past it; in January date and time decide. -/
theorem le_epochSeconds_2038_iff {M D h mi s : Nat} (hM : 1 ≤ M) (hD : 1 ≤ D) (hh : h ≤ 23)
    (hmi : mi ≤ 59) (hs : s ≤ 59) :
    2 ^ 31 ≤ epochSeconds 2038 M D h mi s ↔
      1 < M ∨ 19 < D ∨ D = 19 ∧ 3600 * 3 + 60 * 14 + 8 ≤ 3600 * h + 60 * mi + s := by
  have newYear : yearsSeconds (2038 - epochYear) = 2145916800 := yearsSeconds_eq (by decide)
  rw [epochSeconds, newYear]
  obtain rfl | later := hM.eq_or_lt
  · rw [Nat.sub_self, monthsSeconds_zero]
    omega
  · have january : monthsSeconds 2038 1 ≤ monthsSeconds 2038 (M - 1) :=
      monthsSeconds_mono 2038 (by omega)
    have length : monthsSeconds 2038 1 = 86400 * 31 := rfl
    omega

/-- Settles O50: the ends are those of the century, and the threshold is found year by year: none
before 2038 reaches it, each after 2038 is past it. -/
theorem epochSecondsFits32Bits : Obligations.EpochSecondsFits32Bits := by
  have first : epochSeconds 2000 1 1 0 0 0 = 946684800 := by decide
  have last : epochSeconds 2099 12 31 23 59 59 = 4102444799 := by decide
  have signed : epochSeconds 2038 1 19 3 14 8 = 2 ^ 31 := by decide
  refine ⟨fun Y M D h mi s hlo hhi hM hM' hD hD' hh hmi hs => ?_, first, last, by decide, signed⟩
  obtain ⟨low, high⟩ := epochSeconds_of_century hlo hhi hM' hD' hh hmi hs
  rw [first, last]
  refine ⟨low, high, ?_, ?_⟩
  · rw [BitVec.toNat_ofNat, Nat.mod_eq_of_lt (high.trans_lt (by decide))]
  · obtain before | rfl | after := Nat.lt_trichotomy Y 2038
    · have short := epochSeconds_lt_of_before_2038 (Nat.le_trans (by decide) hlo) before hM' hD' hh
        hmi hs
      omega
    · rw [le_epochSeconds_2038_iff hM hD hh hmi hs]
      omega
    · exact iff_of_true (le_epochSeconds_of_after_2038 M D h mi s after) (.inl after)

/-! UNIXTS (44_timestamp.md R245). -/

/-- The number UNIXTS makes of its six bytes, each clamped, the month with the mask in force. -/
theorem valueOf_unixts {s : State} {b0 b1 b2 b3 b4 b5 : Byte}
    (temps : s.temps = [b0, b1, b2, b3, b4, b5]) :
    valueOf s .unixts = epochSeconds (2000 + clamp (bcdToDecimal b0) 0 99)
      (clamp (bcdToDecimal (b1 &&& monthMaskByte s.cfg.monthMask)) 1 12)
      (clamp (bcdToDecimal b2) 1 31) (clamp (bcdToDecimal b3) 0 23)
      (clamp (bcdToDecimal b4) 0 59) (clamp (bcdToDecimal b5) 0 59) := by
  simp [valueOf, State.tmp, temps, yearValue_eq, monthValue_eq, dateValue_eq, hourValue_eq,
    minuteValue_eq, secondValue_eq]

/-- Settles O26: with the twelve transactions done UNIXTS answers the count of its six bytes. -/
theorem unixtsAnswers : Obligations.UnixtsAnswers := by
  intro s b0 b1 b2 b3 b4 b5 flight
  have ⟨_, _, _, temps⟩ := flight
  have answer := State.InFlight.exec_answers (i := .unixts) flight rfl
  rwa [valueOf_unixts temps] at answer

/-- Settles O36: the six bytes read are those of the registers, in the order of UNIXTS's rule, and the
mask stays as it was. -/
theorem unixtsConvertsTheRegisters : Obligations.UnixtsConvertsTheRegisters := by
  intro s idle good
  obtain ⟨u, temps, cfg, run⟩ := readsAndAnswers_of_reads (i := .unixts) (fun _ => rfl) rfl
    (by decide) rfl idle good
  rwa [valueOf_unixts temps, cfg] at run

end Sys2Proof.Machine
end

section
/-! SUPPORT. The alarm bytes, whose flags stand above the digits, and the whole of SETALM on a good bus (45_alarm_config.md R272 to R275). -/

namespace Sys2Proof.Machine

/-! Flags above digits (45_alarm_config.md R273): the BCD byte of a number below 80 leaves bit 7
free, that of a number below 40 bit 6 too. -/

theorem bcdByte_getElem (v : Nat) {k : Nat} (hk : k < 8) :
    (bcdByte v)[k] = (decimalToBcd v).testBit k := by
  rw [bcdByte, ← BitVec.getLsbD_eq_getElem, BitVec.getLsbD_ofNat, decide_eq_true hk, Bool.true_and]

theorem bcdByte_bit_seven {v : Nat} (h : v < 80) : (bcdByte v)[7] = false :=
  (bcdByte_getElem v _).trans (decimalToBcd_testBit_seven_clear h)

theorem bcdByte_bit_six {v : Nat} (h : v < 40) : (bcdByte v)[6] = false :=
  (bcdByte_getElem v _).trans (decimalToBcd_testBit_six_clear h)

/-- The mask of the digits takes nothing from them. -/
theorem bcdByte_and_digits {v : Nat} (h : v < 40) : bcdByte v &&& 0x3F = bcdByte v := by
  have seven := bcdByte_bit_seven (v := v) (by omega)
  have six := bcdByte_bit_six h
  ext k hk
  interval_cases k <;> simp [seven, six]

/-- The byte that carries `flags` above the digits of `v`: its top bits are the flags, and what is
below them decodes to `v`. -/
theorem bcdByte_or_flags {v : Nat} {flags : Byte} (h : v < 40) (clear : flags &&& 0x3F = 0#8) :
    (bcdByte v ||| flags)[7] = flags[7] ∧ (bcdByte v ||| flags)[6] = flags[6] ∧
      bcdToDecimal ((bcdByte v ||| flags) &&& 0x3F) = v := by
  refine ⟨?_, ?_, ?_⟩
  · rw [BitVec.getElem_or, bcdByte_bit_seven (by omega), Bool.false_or]
  · rw [BitVec.getElem_or, bcdByte_bit_six h, Bool.false_or]
  · rw [BitVec.and_or_distrib_right, clear, bcdByte_and_digits h, BitVec.or_zero,
      bcdToDecimal_bcdByte (by omega)]

/-! The alarm bytes as digits and flags (45_alarm_config.md R274). -/

/-- The flags of the hour byte. -/
def hourFlags : AlarmMode → Byte
  | .minute => 0x80
  | .hourMinute | .dateHourMinute | .weekdayHourMinute => 0

/-- The flags of the day/date byte. -/
def dayDateFlags : AlarmMode → Byte
  | .minute | .hourMinute => 0x80
  | .dateHourMinute => 0
  | .weekdayHourMinute => 0x40

theorem hourFlags_tell_mode (m : AlarmMode) :
    hourFlags m &&& 0x3F = 0#8 ∧ (hourFlags m)[6] = false ∧
      ((hourFlags m)[7] = true ↔ m = .minute) := by cases m <;> decide

theorem dayDateFlags_tell_mode (m : AlarmMode) :
    dayDateFlags m &&& 0x3F = 0#8 ∧ ((dayDateFlags m)[7] = true ↔ m = .minute ∨ m = .hourMinute) ∧
      ((dayDateFlags m)[6] = true ↔ m = .weekdayHourMinute) := by cases m <;> decide

theorem alarmHourByte_eq_digits_or_flags (m : AlarmMode) (h : Nat) :
    alarmHourByte m h = bcdByte h ||| hourFlags m := by
  cases m <;> simp [alarmHourByte, hourFlags]

theorem dayDateByte_eq_digits_or_flags (m : AlarmMode) (d wd : Nat) :
    dayDateByte m d wd = bcdByte (if m = .weekdayHourMinute then wd else d) ||| dayDateFlags m := by
  cases m <;> simp [dayDateByte, dayDateFlags]

/-- Settles O49: both flagged bytes are digits below 40 and flags above them, and the flags tell the
mode. -/
theorem alarmFlagsNeverMeetDigits : Obligations.AlarmFlagsNeverMeetDigits := by
  intro m d wd h mi _ hd _ hwd hh hmi
  obtain ⟨hourClear, hourSix, hourMode⟩ := hourFlags_tell_mode m
  obtain ⟨dayClear, dayMode, weekdayMode⟩ := dayDateFlags_tell_mode m
  have day : (if m = .weekdayHourMinute then wd else d) < 40 := by split_ifs <;> omega
  obtain ⟨hour7, hour6, hourDigits⟩ := bcdByte_or_flags (v := h) (by omega) hourClear
  obtain ⟨day7, day6, dayDigits⟩ := bcdByte_or_flags day dayClear
  rw [alarmHourByte_eq_digits_or_flags, dayDateByte_eq_digits_or_flags, hour7, hour6, day7, day6]
  exact ⟨bcdByte_bit_seven (by omega), hourSix, hourMode, dayMode, weekdayMode, hourDigits, dayDigits⟩

/-! SETALM on a good bus (45_alarm_config.md R272, R275). -/

/-- The registers after a command that sends one block inside the map: those of the block hold its
bytes, where they keep what is written, and the others are as they were. -/
theorem SendsOneBlock.completes_registers {i : Instr} {a : Byte} {data : List Byte} {s : State}
    (block : SendsOneBlock i a data) (inside : a.toNat + data.length ≤ 0x13)
    (legal : legalOperands i = true) (idle : s.Idle) (good : s.BusGood) :
    ∃ t, Completes i s t ∧ s.Answered t (okResponse 0 []) ∧
      (∀ j b, data[j]? = some b → keepsWrites s (a.toNat + j) → t.regByte (a.toNat + j) = b) ∧
      ∀ c, c < a.toNat ∨ a.toNat + data.length ≤ c → t.regByte c = s.regByte c := by
  obtain ⟨t, run, answered, mem⟩ := block.completes legal idle good
  have written := busWrite_regByte (s := accept i s) inside
  refine ⟨t, run, answered, fun j b hj keeps => ?_, fun c outside => ?_⟩
  · rw [regByte_congr mem]
    exact (written _).2 j b hj keeps rfl
  · rw [regByte_congr mem]
    exact (written c).1 outside

theorem alarmBase_toNat (n : AlarmName) :
    (alarmBase n).toNat = if n = .a1 then 0x08 else 0x0B := by cases n <;> rfl

/-- Settles O38: the block of SETALM is its alarm's three registers, which keep what is written to them
on either device. -/
theorem setalmProgramsTheAlarm : Obligations.SetalmProgramsTheAlarm := by
  intro n m d wd h mi s idle good legal base bcd
  have address : (alarmBase n).toNat = base := alarmBase_toNat n
  have low : base ≤ 0x0B := by cases n <;> decide
  have keeps (j : Nat) (hj : j ≤ 2) : keepsWrites s (base + j) := .inr (by omega)
  have inside : (alarmBase n).toNat + 3 ≤ 0x13 := by omega
  obtain ⟨t, run, answered, written, others⟩ :=
    (setalm_sendsOneBlock n m d wd h mi).completes_registers inside legal idle good
  rw [address] at written others
  refine ⟨t, run, answered, written 0 _ rfl (keeps 0 (by decide)), ?_, ?_, fun c outside => ?_⟩
  · rw [written 1 _ rfl (keeps 1 (by decide))]
    cases m <;> rfl
  · rw [written 2 _ rfl (keeps 2 (by decide))]
    cases m <;> rfl
  · exact others c (outside.imp_right Nat.succ_le_of_lt)

end Sys2Proof.Machine
end

section
/-! SUPPORT. AIE: the bit it sets or clears in the byte it reads, and read-modify-write commands on a good bus (46_alarm_interrupt_enable.md R290 to R293; 20_memory.md R78). -/

namespace Sys2Proof.Machine

/-! Setting and clearing, bit by bit (46_alarm_interrupt_enable.md R293). -/

/-- The bits of the mask become 1 or 0, the other bits are as they were. -/
theorem setOrClear_getLsbD (en : Bool) (mask b : Byte) (k : Nat) :
    (setOrClear en mask b).getLsbD k = if mask.getLsbD k then en else b.getLsbD k := by
  cases en <;> cases inMask : mask.getLsbD k
  case false.false =>
    have small : b.getLsbD k = true → k < 8 := BitVec.lt_of_getLsbD
    simpa [setOrClear, not8, inMask] using small
  all_goals simp [setOrClear, not8, inMask]

/-- The bits outside the mask are as they were. -/
theorem setOrClear_and_other {mask other : Byte} (en : Bool) (b : Byte) (h : mask &&& other = 0#8) :
    setOrClear en mask b &&& other = b &&& other := by
  refine BitVec.eq_of_getLsbD_eq fun k _ => ?_
  have apart : (mask.getLsbD k && other.getLsbD k) = false := by
    rw [← BitVec.getLsbD_and, h, BitVec.getLsbD_zero]
  rw [BitVec.getLsbD_and, BitVec.getLsbD_and, setOrClear_getLsbD]
  split_ifs with inMask
  · rw [inMask, Bool.true_and] at apart
    simp [apart]
  · rfl

/-- So are the bits above the mask, moved down. -/
theorem setOrClear_shiftRight {mask : Byte} {j : Nat} (en : Bool) (b : Byte)
    (h : mask >>> j = 0#8) : setOrClear en mask b >>> j = b >>> j := by
  refine BitVec.eq_of_getLsbD_eq fun k _ => ?_
  have above : mask.getLsbD (j + k) = false := by
    rw [← BitVec.getLsbD_ushiftRight, h, BitVec.getLsbD_zero]
  simp [setOrClear_getLsbD, above]

theorem setOrClear_set_set (mask b : Byte) :
    setOrClear true mask (setOrClear true mask b) = setOrClear true mask b := by
  simp [setOrClear, BitVec.or_assoc]

theorem setOrClear_clear_set (mask b : Byte) :
    setOrClear false mask (setOrClear true mask b) = b &&& not8 mask := by
  refine BitVec.eq_of_getLsbD_eq fun k _ => ?_
  change _ = (setOrClear false mask b).getLsbD k
  simp only [setOrClear_getLsbD]
  split_ifs <;> rfl

/-- Settles O28: the write step is `exec_aie_writes`, and what it writes differs from the byte read in
the bit of `alarmMask` alone. -/
theorem aieWritesBack : Obligations.AieWritesBack := by
  refine ⟨fun s c n en v flight good hv => ?_, fun s c n en flight => flight.exec_answers rfl⟩
  obtain rfl : v = setOrClear en (alarmMask n) c := by
    rw [hv]
    cases n <;> cases en <;> rfl
  refine ⟨⟨_, exec_aie_writes n en flight good, ?_, by simp, ?_, by simp [devAddr, RA.control]⟩,
    setOrClear_shiftRight en c ?_, ?_, ?_, setOrClear_set_set _ c, setOrClear_clear_set _ c⟩
  · simpa [State.InFlight] using flight
  · rw [regByte_congr (completeTxn_write_mem _ _ none s), busWrite_control]
  · cases n <;> decide
  all_goals
    rintro rfl
    exact setOrClear_and_other en c (by decide)

/-! The whole command on a good bus. -/

/-- A read-modify-write command that answers `OK 0`: the registers hold what the write-back leaves, and
the reads before it have changed none. -/
theorem rmw_completes {i : Instr} {a : Byte} {change : Byte → Byte} {s : State}
    (plan : ∀ u, planOf u i = readRegister a ++ writeRegister a (change (u.tmp 0)))
    (answer : ∀ u, finishOf i u = u.answered (okResponse 0 [])) (inside : a.toNat ≤ regTop)
    (legal : legalOperands i = true) (idle : s.Idle) (good : s.BusGood) :
    ∃ t u, Completes i s t ∧ s.Answered t (okResponse 0 []) ∧ u.mem = s.mem ∧ u.cfg = s.cfg ∧
      t.mem = (busWrite a [change (s.regByte a.toNat)] u).mem := by
  have count : i.busCount = 3 := by
    rw [← planOf_length s i, plan]
    rfl
  obtain ⟨-, read⟩ := runTxns_readRegister inside (accept i s)
  refine ⟨_, runTxns (readRegister a) (accept i s), completes_rmw plan count inside idle good legal, ?_,
    read, by simp, ?_⟩
  all_goals rw [answer]
  · simp [State.Answered, State.answered]
  · simp [State.answered]

/-- AIE on a good bus changes its bit of the control register and no other register. -/
theorem aie_completes (n : AlarmName) (en : Bool) {s : State} (idle : s.Idle) (good : s.BusGood) :
    ∃ t, Completes (.aie n en) s t ∧ s.Answered t (okResponse 0 []) ∧
      t.regByte 0x0E = setOrClear en (alarmMask n) (s.regByte 0x0E) ∧
      ∀ a, a ≠ 0x0E → t.regByte a = s.regByte a := by
  obtain ⟨t, u, run, answered, read, -, mem⟩ := rmw_completes (i := .aie n en) (a := RA.control)
    (change := setOrClear en (alarmMask n)) (fun _ => rfl) (fun _ => rfl) (by decide) rfl idle good
  refine ⟨t, run, answered, ?_, fun a other => ?_⟩
  · rw [regByte_congr mem]
    exact busWrite_control _ u
  · calc t.regByte a = (busWrite RA.control [_] u).regByte a := regByte_congr mem a
      _ = u.regByte a := storeByte_other (s := { u with ap := RA.control }) other (.inl rfl)
      _ = s.regByte a := regByte_congr read a

/-- Settles O39: the second command starts from the idle engine and the good bus that the first leaves,
and the two masks make `0x03`. -/
theorem enablingBothAlarmsSetsBothBits : Obligations.EnablingBothAlarmsSetsBothBits := by
  intro s idle good
  obtain ⟨t, run, answered, control, others⟩ := aie_completes .a1 true idle good
  have ⟨idle', _, _, _, _, _, answers⟩ := answered
  obtain ⟨u, run', answered', control', others'⟩ :=
    aie_completes .a2 true idle' (answers.trans good)
  refine ⟨t, u, run, answered, run', answered', ?_, fun a other =>
    (others' a other).trans (others a other)⟩
  calc u.regByte 0x0E = s.regByte 0x0E ||| 0x01 ||| 0x02 := by rw [control', control]; rfl
    _ = s.regByte 0x0E ||| 0x03 := BitVec.or_assoc ..

end Sys2Proof.Machine
end

section
/-! SUPPORT. Faults are responses: what an engine step can answer, the two causes of `IllegalCommand`, the first bad operand, a transaction that fails, and no step that stops (60_exceptions.md R340 to R348). -/

namespace Sys2Proof.Machine

/-- Every response an engine step of a command can give. -/
theorem exec_response_cases {i : Instr} {s t : State} {r : Response} (h : exec i s = .next t)
    (hr : t.responses = s.responses ++ [r]) :
    (∃ k, badOperand i = some k ∧ r = faultResponse .invalidArgument k) ∨
      r = faultResponse .busError s.stepNo ∨ ∃ v x, r = okResponse v x := by
  have silent : t.responses ≠ s.responses := by simp [hr]
  have only {q : Response} (hq : t.responses = s.responses ++ [q]) : r = q := by
    simpa using hr.symm.trans hq
  obtain ⟨-, -, rfl⟩ | ⟨k, -, bad, rfl⟩ | ⟨x, -, -, -, rfl⟩ | ⟨-, -, rfl⟩ := exec_cases h
  · exact absurd rfl silent
  · exact .inl ⟨k, bad, only rfl⟩
  · obtain ⟨-, e⟩ | ⟨-, b, e⟩ | ⟨-, left, -, e⟩ | ⟨-, left, -, e⟩ := transact_cases x s
    all_goals rw [e] at silent only
    · exact absurd rfl silent
    · exact absurd (by simp) silent
    · exact .inr (.inl (only (by simp [faultResponse])))
    · exact absurd (by simp) silent
  · exact .inr (.inr ⟨valueOf s i, textOf s i, only rfl⟩)

/-- An idle engine that is presented a word which is no command refuses it. -/
theorem step_refuses_word {s : State} {w : Word64} {e : DecodeError} (idle : s.Idle)
    (ha : s.agenda = []) (hw : s.commands[s.cix]? = some w) (hd : decode w = .error e) :
    step s = .next (s.answered (faultResponse .illegalCommand e.info)) := by
  rw [step_engine ha, engineStep_error idle ((currentWord_idle idle).trans hw) hd]
  rfl

/-- Settles O10: the decoder's two refusals have the two causes (`decoderRefusesByCause`), and a
command answers with other responses only. -/
theorem illegalCommandIsReported : Obligations.IllegalCommandIsReported := by
  refine ⟨fun s w idle ha hw => ?_, fun i s t r h hr => ?_⟩
  · obtain ⟨unknown, reserved⟩ := decoderRefusesByCause w
    exact ⟨fun missing => step_refuses_word idle ha hw (unknown.2 missing),
      fun r hr hop unselected =>
        step_refuses_word idle ha hw (reserved.2 ⟨r, hr, hop, unselected⟩)⟩
  · obtain ⟨k, -, rfl⟩ | rfl | ⟨v, x, rfl⟩ := exec_response_cases h hr
    all_goals exact nofun

/-! The first bad operand (60_exceptions.md R342). -/

/-- A range check that holds passes on to the next position, one that fails is reported. -/
theorem firstFailing_within (k v lo hi : Nat) (rest : List Bool) :
    firstFailing k (within v lo hi :: rest) =
      if lo ≤ v ∧ v ≤ hi then firstFailing (k + 1) rest else some k := by
  simp [firstFailing, within]

/-- Only the three commands with calendar operands have an operand that can be bad. -/
theorem checks_operands_of_bad {i : Instr} {k : Nat} (bad : badOperand i = some k) :
    (∃ y mo d wd h mi sc, i = .setdt y mo d wd h mi sc) ∨
      (∃ n m d wd h mi, i = .setalm n m d wd h mi) ∨
      ∃ y mo d h mi sc, i = .epoch y mo d h mi sc := by
  cases i
  case setdt y mo d wd h mi sc => exact .inl ⟨y, mo, d, wd, h, mi, sc, rfl⟩
  case setalm n m d wd h mi => exact .inr (.inl ⟨n, m, d, wd, h, mi, rfl⟩)
  case epoch y mo d h mi sc => exact .inr (.inr ⟨y, mo, d, h, mi, sc, rfl⟩)
  all_goals cases bad

theorem exec_reports_operand {i : Instr} {s : State} {k : Nat} (idle : s.Idle)
    (bad : badOperand i = some k) :
    exec i s = .next (s.answered (faultResponse .invalidArgument k)) := exec_refuses idle bad

/-- Settles O11: an idle engine answers with the position that `firstFailing` finds, which passes
over the checks that hold and stops at the first that fails, position by position. -/
theorem firstBadOperandIsReported : Obligations.FirstBadOperandIsReported := by
  refine ⟨fun y mo d wd h mi sc s idle => ?setdt, fun n m d wd h mi s idle => ?setalm,
    fun y mo d h mi sc s idle => ?epoch, fun i s t r h hr invalid => ?others⟩
  case others =>
    obtain ⟨k, bad, -⟩ | rfl | ⟨v, x, rfl⟩ := exec_response_cases h hr
    · exact checks_operands_of_bad bad
    · cases invalid
    · cases invalid
  all_goals
    dsimp only
    and_intros
    all_goals
      intros
      refine exec_reports_operand idle ?_
      simp (disch := omega) only [badOperand, setdtBad, setalmBad, epochBad, firstFailing_within,
        if_pos, if_neg]

/-! Transactions that fail (60_exceptions.md R343). -/

theorem transact_error (x : Txn) {s : State} {left : List Byte} {rest : List Answer}
    (ht : s.transferring = false) (ha : s.answers = .error left :: rest) :
    transact x s = raise .busError s.stepNo (logTxn x .failed (disturb x left s.takeAnswer)) := by
  simp [transact, ht, ha]

/-- Settles O13: the command has a transaction to issue, and its failure is the fault entry. -/
theorem busErrorEndsTheCommand : Obligations.BusErrorEndsTheCommand := by
  intro i s left rest busy free more ha
  obtain ⟨x, hx⟩ := plan_some more
  refine ⟨_, x, by rw [exec_issues busy hx, transact_error x free ha], by simp, by simp, by simp,
    by simp [faultResponse], by simp [devAddr], by simp [ha]⟩

/-! No step stops (60_exceptions.md R344, R345). -/

/-- The engine's one fault is a word in flight that is no command. -/
theorem engineStep_next {s : State} (h : s.busy = true → ∃ i, decode s.cmd = .ok i) :
    ∃ t, engineStep s = .next t := by
  cases hb : s.busy with
  | true =>
    obtain ⟨i, hd⟩ := h hb
    rw [engineStep_ok (currentWord_busy hb) hd]
    exact exec_next i s
  | false =>
    cases hw : s.currentWord with
    | none => exact ⟨_, engineStep_waits hw⟩
    | some w =>
      cases hd : decode w with
      | ok i =>
        rw [engineStep_ok hw hd]
        exact exec_next i s
      | error e => exact ⟨_, engineStep_error hb hw hd⟩

/-- Settles O55: the invariant has the word in flight decode, and no agent but the engine can stop.
-/
theorem noStepStops : Obligations.NoStepStops := by
  intro s inv
  have decodes : s.busy = true → ∃ i, decode s.cmd = .ok i := fun busy => by
    obtain ⟨i, hd, -⟩ := inv.inFlight busy
    exact ⟨i, hd⟩
  cases ha : s.agenda with
  | nil =>
    rw [step_engine ha]
    exact engineStep_next decodes
  | cons m rest =>
    cases m with
    | engine =>
      rw [step_engine_move ha]
      exact engineStep_next decodes
    | chip cells => exact ⟨_, step_chip ha⟩
    | master x => exact ⟨_, step_master ha⟩
    | reset => exact ⟨_, step_reset ha⟩
    | powerUp regs p => exact ⟨_, step_powerUp ha⟩

end Sys2Proof.Machine
end

section
/-! SUPPORT. ACLR and GINT: the byte each writes back, the alarm flags after any write to the status register, and the whole commands on a good bus (47_flag_clear_global_int.md R300 to R306; 70_reset_and_hazards.md R394). -/

namespace Sys2Proof.Machine

/-- The command reads the register `a`, writes `change` of the byte back and answers `OK 0`. -/
structure ModifiesRegister (i : Instr) (a : Byte) (change : Byte → Byte) : Prop where
  plan : ∀ s, planOf s i = readRegister a ++ writeRegister a (change (s.tmp 0))
  answer : ∀ s, finishOf i s = s.answered (okResponse 0 [])
  inside : a.toNat ≤ regTop
  legal : legalOperands i = true

theorem aclr_modifiesRegister (n : AlarmName) :
    ModifiesRegister (.aclr n) RA.status fun b => b &&& not8 (alarmMask n) :=
  ⟨fun _ => rfl, fun _ => rfl, by decide, rfl⟩

theorem gint_modifiesRegister (en : Bool) :
    ModifiesRegister (.gint en) RA.control (setOrClear en intcnMask) :=
  ⟨fun _ => rfl, fun _ => rfl, by decide, rfl⟩

section ModifiesRegister
variable {i : Instr} {a : Byte} {change : Byte → Byte} {s : State}
  (rmw : ModifiesRegister i a change)
include rmw

/-- The write step, from the byte that has been read. -/
theorem ModifiesRegister.exec_writes {c : Byte} (flight : s.InFlight 2 [c]) (good : s.BusGood) :
    exec i s = .next (completeTxn (.write a [change c]) none s) := by
  have byte := flight.tmp_zero
  obtain ⟨busy, free, done, -⟩ := flight
  refine exec_transacts busy free good ?_
  rw [rmw.plan, done, byte]
  rfl

/-- What the write step leaves of the engine and the bus, and where the register is to be found. -/
theorem ModifiesRegister.exec_writes_back {c : Byte} (flight : s.InFlight 2 [c])
    (good : s.BusGood) :
    ∃ t, exec i s = .next t ∧ t.InFlight 3 [c] ∧ t.responses = s.responses ∧
      t.trace = s.trace ++ [⟨devAddr, .write a [change c], .done none⟩] ∧
      t.regByte a.toNat = (busWrite a [change c] s).regByte a.toNat := by
  refine ⟨_, rmw.exec_writes flight good, ?_, by simp, by simp, regByte_congr (by simp) _⟩
  simpa [State.InFlight] using flight

/-- The whole command on a good bus: its register is as the write-back of the changed byte leaves
it, and every other register as it was. -/
theorem ModifiesRegister.completes (idle : s.Idle) (good : s.BusGood) :
    ∃ t u, Completes i s t ∧ s.Answered t (okResponse 0 []) ∧ u.cfg = s.cfg ∧
      u.regByte a.toNat = s.regByte a.toNat ∧
      t.regByte a.toNat = (busWrite a [change (s.regByte a.toNat)] u).regByte a.toNat ∧
      ∀ c, c ≠ a.toNat → t.regByte c = s.regByte c := by
  obtain ⟨t, u, run, answered, read, cfg, mem⟩ :=
    rmw_completes rmw.plan rmw.answer rmw.inside rmw.legal idle good
  refine ⟨t, u, run, answered, cfg, regByte_congr read _, regByte_congr mem _, fun c other => ?_⟩
  calc t.regByte c = (busWrite a [_] u).regByte c := regByte_congr mem c
    _ = u.regByte c :=
      storeByte_other (s := { u with ap := a }) other (.inl (inMap_iff.2 rmw.inside))
    _ = s.regByte c := regByte_congr read c

end ModifiesRegister

/-! The status register after a write (47_flag_clear_global_int.md R301, 20_memory.md R81). -/

theorem busWrite_status_reference (v : Byte) {s : State} (h : s.cfg.device = .reference) :
    (busWrite RA.status [v] s).regByte 0x0F = v :=
  busWrite_one (a := RA.status) v (by decide) (.inl h)

theorem busWrite_status_real (v : Byte) {s : State} (h : s.cfg.device = .real) :
    (busWrite RA.status [v] s).regByte 0x0F &&& 0x03 = s.regByte 0x0F &&& v &&& 0x03 :=
  busWrite_flags (a := RA.status) (data := [v]) (j := 0) h
    (show 0x0F + 1 ≤ 0x13 by decide) rfl rfl

/-- On either device a flag that is written as 0 is 0. -/
theorem busWrite_status_clears {v flags : Byte} (s : State) (only : 0x03 &&& flags = flags)
    (clear : v &&& flags = 0) : (busWrite RA.status [v] s).regByte 0x0F &&& flags = 0 := by
  cases device : s.cfg.device with
  | reference => rw [busWrite_status_reference v device, clear]
  | real =>
    calc (busWrite RA.status [v] s).regByte 0x0F &&& flags
        = (busWrite RA.status [v] s).regByte 0x0F &&& 0x03 &&& flags := by
          rw [BitVec.and_assoc, only]
      _ = s.regByte 0x0F &&& (v &&& flags) := by
          rw [busWrite_status_real v device, BitVec.and_assoc, only, BitVec.and_assoc]
      _ = 0 := by rw [clear]; exact BitVec.and_zero

/-- On either device the flags are the ones written, where none is written that was not set. -/
theorem busWrite_status_flags {v : Byte} {s : State} (kept : s.regByte 0x0F &&& v = v) :
    (busWrite RA.status [v] s).regByte 0x0F &&& 0x03 = v &&& 0x03 := by
  cases device : s.cfg.device with
  | reference => rw [busWrite_status_reference v device]
  | real => rw [busWrite_status_real v device, kept]

/-! The masks (47_flag_clear_global_int.md R300, R306). -/

theorem gint_change_eq (en : Bool) (c : Byte) :
    setOrClear en intcnMask c = if en then c ||| 0x04 else c &&& 0xFB := by
  cases en <;> rfl

theorem and_not8_and_self (b mask : Byte) : b &&& not8 mask &&& mask = 0 := by
  rw [BitVec.and_assoc, not8, BitVec.and_comm (~~~mask), BitVec.and_not_self]
  exact BitVec.and_zero

/-- The flag of the other alarm in the status register. -/
def otherFlag : AlarmName → Byte
  | .a1 => 0x02
  | .a2 => 0x01

/-- Of the two flags ACLR keeps the other alarm's. -/
theorem and_not8_alarmMask_flags (n : AlarmName) (c : Byte) :
    c &&& not8 (alarmMask n) &&& 0x03 = c &&& otherFlag n := by
  rw [BitVec.and_assoc]
  cases n <;> rfl

/-- Settles O29: the write step is that of a read-modify-write command, and on either device the
flag that is written as 0 is 0. -/
theorem aclrAndGintWriteBack : Obligations.AclrAndGintWriteBack := by
  refine ⟨fun s c n v flight good hv => ?_, fun s c en v flight good hv => ?_,
    fun s c n en flight => ⟨flight.exec_answers rfl, flight.exec_answers rfl⟩⟩
  · obtain rfl : v = c &&& not8 (alarmMask n) := by
      rw [hv]
      cases n <;> rfl
    obtain ⟨t, run, flight', silent, trace, register⟩ :=
      (aclr_modifiesRegister n).exec_writes_back flight good
    refine ⟨⟨t, run, flight', silent, trace, ?_, fun reference => ?_⟩, ?_⟩
    · exact register ▸ busWrite_status_clears s (by cases n <;> decide)
        (and_not8_and_self c _)
    · exact register.trans (busWrite_status_reference _ reference)
    · rw [BitVec.and_assoc, BitVec.and_self]
  · obtain rfl := hv.trans (gint_change_eq en c).symm
    obtain ⟨t, run, flight', silent, trace, register⟩ :=
      (gint_modifiesRegister en).exec_writes_back flight good
    refine ⟨⟨t, run, flight', silent, register.trans (busWrite_control _ s), trace⟩, ?_⟩
    cases en
    · exact (BitVec.and_assoc ..).trans (congrArg (c &&& ·) (BitVec.and_self ..))
    · exact setOrClear_set_set intcnMask c

/-- Settles O40: what ACLR writes back is part of what it has read, so on either device the flags
are the ones written; the control register keeps what GINT writes. -/
theorem aclrAndGintChangeOneBit : Obligations.AclrAndGintChangeOneBit := by
  refine fun s idle good => ⟨fun n => ?_, fun en => ?_⟩
  · obtain ⟨t, u, run, answered, cfg, old, new, others⟩ :=
      (aclr_modifiesRegister n).completes idle good
    change u.regByte 0x0F = s.regByte 0x0F at old
    change t.regByte 0x0F = (busWrite RA.status [s.regByte 0x0F &&& _] u).regByte 0x0F at new
    refine ⟨t, run, answered, ?_, fun reference => ?_, others⟩
    · have kept : u.regByte 0x0F &&& (s.regByte 0x0F &&& not8 (alarmMask n)) =
          s.regByte 0x0F &&& not8 (alarmMask n) := by rw [old, ← BitVec.and_assoc, BitVec.and_self]
      rw [new, busWrite_status_flags kept, and_not8_alarmMask_flags]
      cases n <;> rfl
    · rw [new, busWrite_status_reference _ (cfg ▸ reference)]
      cases n <;> rfl
  · obtain ⟨t, u, run, answered, -, -, new, others⟩ := (gint_modifiesRegister en).completes idle good
    exact ⟨t, run, answered, new.trans ((busWrite_control _ u).trans (gint_change_eq en _)), others⟩

/-- Settles O58: ACLR, WRREG and the block of another master all end in a `busWrite` in the map,
after which a flag is set only if it was and is written as 1. -/
theorem completedWriteInTheMapRaisesNoFlag : Obligations.CompletedWriteInTheMapRaisesNoFlag := by
  intro s real
  refine ⟨fun c n flight good => ?_, fun v flight good => ?_, fun a data rest ha top => ?_⟩
  · refine ⟨_, (aclr_modifiesRegister n).exec_writes flight good, ?_⟩
    rw [regByte_congr (completeTxn_write_mem _ _ none s), busWrite_status_real _ real,
      BitVec.and_assoc, and_not8_alarmMask_flags, BitVec.and_assoc]
    cases n <;> rfl
  · refine ⟨_, (wrreg_sendsOneBlock 0x0F v).exec_writes flight good, ?_⟩
    rw [regByte_congr (completeTxn_write_mem _ _ none s)]
    exact busWrite_status_real v real
  · refine ⟨_, step_master ha, fun j b hj status => ?_, fun aside => ?_⟩
    · exact busWrite_flags (s := { s with agenda := rest }) real top hj status
    · exact (busWrite_regByte (s := { s with agenda := rest }) top 0x0F).1 aside

end Sys2Proof.Machine
end

section
/-! SUPPORT. SETDT read back by the accessors and UNIXTS (48_datetime_set.md R322; 41_bcd_codec.md R164), and a register read split by another master (70_reset_and_hazards.md R397). -/

namespace Sys2Proof.Machine

/-- A legal operand is read back as it was encoded. -/
theorem clamp_bcdByte {v lo hi : Nat} (hlo : lo ≤ v) (hhi : v ≤ hi) (fits : hi ≤ 99) :
    clamp (bcdToDecimal (bcdByte v)) lo hi = v := by
  rw [bcdToDecimal_bcdByte (hhi.trans fits), clamp_inside hlo hhi]

/-- Neither month mask takes anything from the digits of a month. -/
theorem bcdByte_and_monthMaskByte (m : MonthMask) {mo : Nat} (h : mo ≤ 12) :
    bcdByte mo &&& monthMaskByte m = bcdByte mo := by
  have months : ∀ mo < 13, bcdByte mo &&& monthMaskByte m = bcdByte mo := by cases m <;> decide
  exact months mo (Nat.lt_succ_of_le h)

/-- Settles O37: the block of SETDT is the registers 0 to 6, which keep what is written to them on
either device; the accessors and UNIXTS answer from these registers. -/
theorem setdtReadsBack : Obligations.SetdtReadsBack := by
  intro y mo d wd h mi sc s idle good legal
  obtain ⟨t, run, answered, written, others⟩ :=
    (setdt_sendsOneBlock y mo d wd h mi sc).completes_registers
      (show 0 + 7 ≤ 0x13 by decide) legal idle good
  have register (j : Nat) (hj : j ≤ 6) (b : Byte)
      (hb : ([sc, mi, h, wd, d, mo, y - 2000].map bcdByte)[j]? = some b) : t.regByte j = b := by
    have reg := written j b hb (.inr (by simp [RA.second]; omega))
    simpa [RA.second] using reg
  have ⟨idle', _, _, _, _, _, answers⟩ := answered
  have good' := answers.trans good
  have unixts := unixtsConvertsTheRegisters t idle' good'
  obtain ⟨year, month, date, wday, -, hour, min, sec, -⟩ :=
    accessorsReadTheirRegister t idle' good'
  simp only [legalOperands, Bool.and_eq_true, decide_eq_true_eq] at legal
  simp (disch := omega) only [register 0 (by decide) _ rfl, register 1 (by decide) _ rfl,
    register 2 (by decide) _ rfl, register 3 (by decide) _ rfl, register 4 (by decide) _ rfl,
    register 5 (by decide) _ rfl, register 6 (by decide) _ rfl, bcdByte_and_monthMaskByte,
    clamp_bcdByte, Nat.add_sub_cancel'] at unixts year month date wday hour min sec
  exact ⟨t, run, answered, fun a above => others a (.inr above), year, month, date, wday, hour, min,
    sec, unixts⟩

/-- Settles O44: the other master's address write moves the pointer, and the byte read is the one of
the register the pointer names. -/
theorem splitReadReadsAnotherRegister : Obligations.SplitReadReadsAnotherRegister := by
  intro s a b flight good word inside ha
  let t : State := busWrite b [] { s with agenda := [] }
  have ⟨busy, free, done, temps⟩ := flight
  have resume : step t = exec (.rdreg a) t :=
    step_runs rfl ((currentWord_busy (s := t) busy).trans (congrArg some word)) rfl
  have read : exec (.rdreg a) t = .next (completeTxn .read none t) :=
    exec_transacts busy free good (done ▸ rfl)
  refine ⟨t, _, step_master ha, resume.trans read, ?_⟩
  rw [completeTxn_read_temps, Option.getD_none, readByte_in_map (s := t) inside]
  exact congrArg (· ++ _) temps

end Sys2Proof.Machine
end
